-- ==== Sys2Proof/Word.lean ====
section
/-! DEFINITION. The byte and word types (R9): `u8` and `u16` of the spec. -/

namespace Sys2Proof

/-- `u8`: an unsigned 8-bit value (R9). -/
abbrev Byte := BitVec 8

/-- `u16`: an unsigned 16-bit value (R9). -/
abbrev Word := BitVec 16

end Sys2Proof
end

