-- ==== Sys2Proof/Config.lean ====
section
/-! DEFINITION. The engine's parameters (R7) and the free values the spec leaves open.
The OPEN parameter `P_MAX_INSTRUCTIONS` is a field of State (log 3), so that a statement over all
states is a statement for every value of it. -/

namespace Sys2Proof.Config

/-- `MEM_SIZE`, the number of bytes of memory (R7, R37). -/
def memSize : Nat := 0x10000

/-- `PROGRAM_BASE`, where the image is placed and where execution starts (R7, R142). -/
def programBase : Nat := 0x0100

/-- `MAX_IMAGE` = `MEM_SIZE - PROGRAM_BASE`, the longest image a load accepts (R7, R146). -/
def maxImage : Nat := 0xFF00

/-- `VECTOR_BASE`: an INT's number less this is its vector (R7, R101). -/
def vectorBase : Nat := 0x20

/-- `P_STACK_TOP`, this spec's value (R7, R44, D4). DESIGN CHOICE, unsafe: log 2. -/
def stackTop : Int := 0x10000

/-- `P_NOP_OPCODE`, this spec's value (R7, R60, D1). DESIGN CHOICE, unsafe: log 1. -/
def nopOpcode : Byte := 0x5A

/-- What a byte of memory that nothing has written reads as (R36, D5).
DESIGN CHOICE, unsafe: log 10. -/
def unlistedByte : Byte := 0x00

/-- `$`, the byte that ends the string of the print service (R112). -/
def stringEnd : Byte := 0x24

/-- `P_BOUND_EXIT_STATUS`, OPEN: the host's exit status on a bound stop (R7, R134). Log 4. -/
opaque boundExitStatus : Nat

/-- The byte the `n`-th `ConsoleIn()` answers when the host has supplied no byte for it: any byte,
under no law (R131, D12). DESIGN CHOICE, safe: log 5. -/
opaque consoleByte : Nat → Byte

/-- The byte the `n`-th `Draw8()` answers: any byte, under no law (R133, D11).
DESIGN CHOICE, safe: log 6. -/
opaque drawByte : Nat → Byte

end Sys2Proof.Config
end

