-- ==== Sys2Proof/Syntax.lean ====
section
/-! DEFINITION. The instructions of the opcode table (R59), one constructor per row, each holding
the operand bytes its format gives it (R57). -/

namespace Sys2Proof

/-- The seven instructions of R59. The registers an instruction uses are fixed by its opcode (R70),
so no constructor names one. -/
inductive Instr where
  /-- `NOP`, format Z (R77). -/
  | nop
  /-- `MOV AH, imm8`, format I8 (R78). -/
  | movAh (imm8 : Byte)
  /-- `MOV DX, imm16`, format I16 (R79). -/
  | movDx (imm16 : Word)
  /-- `RET`, format Z (R86). -/
  | ret
  /-- `INT imm8`, format I8 (R97). -/
  | int (imm8 : Byte)
  /-- `CALL rel8`, format D8X (R84). `x8` is the byte that is skipped and never read (R67); it is
  `none` where that byte lies outside memory, at a CALL whose opcode stands at 0xFFFE (R68). -/
  | call (rel8 : Byte) (x8 : Option Byte)
  /-- `JMP rel8`, format D8 (R83). -/
  | jmp (rel8 : Byte)
deriving DecidableEq, Repr

end Sys2Proof
end

