-- ==== Sys2Proof/WellFormed.lean ====
section
/-! DEFINITION. Which instruction terms stand for a whole encoding. Every value of every operand
byte is legal (R63), so the one check is that a CALL holds all three bytes of its format (R57). -/

namespace Sys2Proof

/-- The instruction has every byte of its format (R57, R63). -/
def Instr.wellFormed : Instr → Bool
  | .nop => true
  | .movAh _ => true
  | .movDx _ => true
  | .ret => true
  | .int _ => true
  | .call _ x8 => x8.isSome
  | .jmp _ => true

/-- The length in bytes of the instruction's format (R57, R59). -/
def Instr.length : Instr → Nat
  | .nop => 1
  | .movAh _ => 2
  | .movDx _ => 3
  | .ret => 1
  | .int _ => 2
  | .call _ _ => 3
  | .jmp _ => 2

end Sys2Proof
end

