-- ==== Sys2Proof/Decode.lean ====
section
/-! DEFINITION. The opcode dispatch table (R58, R59), the decoder, total on any bytes (R70), and the
encoder written from the same formats (R57). Both take the NOP byte as an argument (R60: a model may
take 0x90 instead) and are used at `Config.nopOpcode`. -/

namespace Sys2Proof

/-- `hi ++ lo`: the word whose high-order byte is `hi` (R9, R39). -/
def joinBytes (hi lo : Byte) : Word := hi ++ lo

/-- `w[7:0]` (R9). -/
def lowByte (w : Word) : Byte := w.extractLsb' 0 8

/-- `w[15:8]` (R9). -/
def highByte (w : Word) : Byte := w.extractLsb' 8 8

/-- The handlers of the opcode dispatch table that are not the invalid-opcode handler (R58). -/
inductive Opcode where
  | nop | movAh | movDx | ret | int | call | jmp
deriving DecidableEq, Repr

/-- The opcode dispatch table with NOP at `nop`, in the order of R61; `none` is the default, the
invalid-opcode handler (R58, R59, R61, R62). -/
def opcodeTableWith (nop op : Byte) : Option Opcode :=
  if op = nop then some .nop
  else if op = 0xB4 then some .movAh
  else if op = 0xBA then some .movDx
  else if op = 0xC3 then some .ret
  else if op = 0xCD then some .int
  else if op = 0xE8 then some .call
  else if op = 0xEB then some .jmp
  else none

/-- The opcode dispatch table of this hardware (R59, R60). -/
def opcodeTable (op : Byte) : Option Opcode := opcodeTableWith Config.nopOpcode op

/-- What the decoder answers (R70). -/
inductive Decoded where
  /-- An instruction, and the bytes after it. -/
  | instr (i : Instr) (rest : List Byte)
  /-- The first byte is not in the opcode table (R62). -/
  | invalidOpcode (op : Byte)
  /-- The operand byte at distance `k` from the opcode byte is needed and is not there (R68). -/
  | missingOperand (k : Nat)
  /-- There is no byte at all. -/
  | noByte
deriving DecidableEq, Repr

/-- The operand bytes of format I8 or D8 (R57): one byte, at `p`. -/
def decodeByteOperand (make : Byte → Instr) : List Byte → Decoded
  | b :: rest => .instr (make b) rest
  | [] => .missingOperand 1

/-- The operand bytes of format I16 (R57, R66): the low-order byte first. -/
def decodeWordOperand (make : Word → Instr) : List Byte → Decoded
  | lo :: hi :: rest => .instr (make (joinBytes hi lo)) rest
  | [_] => .missingOperand 2
  | [] => .missingOperand 1

/-- The operand bytes of format D8X (R57, R67, R68): `rel8`, and `x8` if it lies inside memory. -/
def decodeCallOperands : List Byte → Decoded
  | rel8 :: x8 :: rest => .instr (.call rel8 (some x8)) rest
  | [rel8] => .instr (.call rel8 none) []
  | [] => .missingOperand 1

/-- Decode the instruction at the head of `bytes`, with NOP at `nop` (R56, R57, R70). -/
def decodeWith (nop : Byte) (bytes : List Byte) : Decoded :=
  match bytes with
  | [] => .noByte
  | op :: rest =>
    match opcodeTableWith nop op with
    | none => .invalidOpcode op
    | some .nop => .instr .nop rest
    | some .movAh => decodeByteOperand .movAh rest
    | some .movDx => decodeWordOperand .movDx rest
    | some .ret => .instr .ret rest
    | some .int => decodeByteOperand .int rest
    | some .call => decodeCallOperands rest
    | some .jmp => decodeByteOperand .jmp rest

/-- The decoder of this hardware. -/
def decode (bytes : List Byte) : Decoded := decodeWith Config.nopOpcode bytes

/-- The bytes of an instruction, with NOP at `nop` (R57, R59). -/
def encodeWith (nop : Byte) : Instr → List Byte
  | .nop => [nop]
  | .movAh imm8 => [0xB4, imm8]
  | .movDx imm16 => [0xBA, lowByte imm16, highByte imm16]
  | .ret => [0xC3]
  | .int imm8 => [0xCD, imm8]
  | .call rel8 (some x8) => [0xE8, rel8, x8]
  | .call rel8 none => [0xE8, rel8]
  | .jmp rel8 => [0xEB, rel8]

/-- The encoder of this hardware. -/
def encode (i : Instr) : List Byte := encodeWith Config.nopOpcode i

/-- The three bytes, first byte first, of an instruction whose bits are `w` as opcode_table.json
numbers them: the first byte is bits 7..0, and every bit from `nbits` up is 0. -/
def tableBytes (nbits w : Nat) : List Byte :=
  let v := w % 2 ^ nbits
  [BitVec.ofNat 8 v, BitVec.ofNat 8 (v / 0x100), BitVec.ofNat 8 (v / 0x10000)]

/-- The instruction the decoder reads from a word of opcode_table.json. -/
def decodeTableWord (nbits w : Nat) : Option Instr :=
  match decode (tableBytes nbits w) with
  | .instr i _ => some i
  | .invalidOpcode _ => none
  | .missingOperand _ => none
  | .noByte => none

end Sys2Proof
end

