-- ==== Sys2Proof/Machine/State.lean ====
section
/-! DEFINITION. The engine's state as plain data (10_state.md), the reasons a run ends, and the state
after reset (R36). -/

namespace Sys2Proof.Machine

/-- The 8-bit register views (R21). -/
inductive Reg8 where
  | al | ah | bl | bh | cl | ch | dl | dh
deriving DecidableEq, Repr

/-- The 16-bit register views (R21). -/
inductive Reg16 where
  | ax | bx | cx | dx | si | di | bp | sp | ip | cs | ds | es | ss
deriving DecidableEq, Repr

/-- The register file (R20, R21). Each pair is stored once, as its 16-bit view; the 8-bit views are
computed from it (R23, D23; log 18). Names beyond AH, AL, AX, DX, DL are PRESUMED from the 8086 by
the spec (D24; log 13). -/
structure RegFile where
  ax : Word
  bx : Word
  cx : Word
  dx : Word
  si : Word
  di : Word
  bp : Word
  sp : Word
  ip : Word
  cs : Word
  ds : Word
  es : Word
  ss : Word
deriving DecidableEq, Repr

/-- Memory as (address, byte) pairs: addresses strictly rising and below `Config.memSize`, no byte
equal to `Config.unlistedByte` (`Memory.wf` in Ops.lean). An unlisted address reads as
`Config.unlistedByte` (R36, R37). -/
abbrev Memory := List Host.Cell

/-- Why the loop's hard bound stopped a run (R31, R152, R153). -/
inductive StopReason where
  | instructionCount
  | addressTop
deriving DecidableEq, Repr

/-- The fault kinds of a step with their records (R120, R122, R123, R124). -/
inductive FaultKind where
  /-- The byte at `pc_fetch` is in no row of the opcode table; `nextByte` is `none` at 0xFFFF
  (R122). -/
  | invalidOpcode (opcode : Byte) (nextByte : Option Byte) (offset : Int)
  /-- An INT whose (vector, selector) pair has no service (R124). -/
  | invalidInterrupt (vector : Int) (selector : Byte) (imm8 : Byte)
  /-- A byte access outside memory; `addr` is the first out-of-range address (R123). -/
  | memoryBounds (addr : Int) (offset : Int)
deriving DecidableEq, Repr

/-- The run status (R31). Every status but `running` is terminal. -/
inductive Status where
  | running
  | halted (rc : Byte)
  | boundStop (reason : StopReason)
  | faulted (kind : FaultKind)
deriving DecidableEq, Repr

/-- Why `step` stops the model. The engine's own faults are NOT here: raising one is a next state
whose status says so (R120; log 7). -/
inductive Fault where
  /-- Raised by `step` on a state whose status is terminal: "no step follows it" (R31, R120, R144).
  SAFE: nothing is claimed of a step the engine does not take (log 8). -/
  | runEnded
deriving DecidableEq, Repr

/-- Why the model gives no meaning. -/
inductive Refusal where
  /-- Raised by an arm of `exec` whose instruction has no meaning yet; no arm does. SAFE. -/
  | notModelled (mnemonic : String)
deriving DecidableEq, Repr

/-- The whole state of a run. -/
structure State where
  /-- The register file (R20). -/
  regs : RegFile
  /-- The execution pointer, an absolute address that is never wrapped (R27, D7, D8). -/
  pc : Int
  /-- The 64 KiB of memory (R37). -/
  mem : Memory
  /-- The halt flag (R30). -/
  halted : Bool
  /-- The program's return code, written with `halted` (R30). -/
  rc : Byte
  /-- The run status (R31). -/
  status : Status
  /-- The count of instructions completed (R32). -/
  count : Nat
  /-- The bytes written to standard output, in order (R35). -/
  out : List Byte
  /-- MODEL's own: the bytes the host has ready on standard input, oldest first (R131; log 5). -/
  input : List Byte
  /-- MODEL's own: how many `ConsoleIn()` calls were made (R131; log 5). -/
  consoleReads : Nat
  /-- MODEL's own: how many `Draw8()` calls were made (R133; log 6). -/
  draws : Nat
  /-- MODEL's own: the OPEN parameter `P_MAX_INSTRUCTIONS`, `none` for unbounded (R152; log 3). No
  step changes it. -/
  maxInstructions : Option Nat
deriving DecidableEq, Repr

/-- Every register at 0x0000 (R36). SP's zero is the source's; the others are the spec's decision D6:
DESIGN CHOICE, unsafe: log 9. -/
def RegFile.reset : RegFile where
  ax := 0
  bx := 0
  cx := 0
  dx := 0
  si := 0
  di := 0
  bp := 0
  sp := 0
  ip := 0
  cs := 0
  ds := 0
  es := 0
  ss := 0

/-- The state after reset with an empty image (R36, R142). The model's own fields stand at the
values of log 3, log 5 and log 6. -/
def State.reset : State where
  regs := RegFile.reset
  pc := Config.programBase
  mem := []
  halted := false
  rc := 0
  status := .running
  count := 0
  out := []
  input := []
  consoleReads := 0
  draws := 0
  maxInstructions := none

end Sys2Proof.Machine
end

