-- ==== Sys2Proof/Machine/Ops.lean ====
section
/-! DEFINITION. The shared operations: register views (R23), memory (R37 to R43), the stack (R44,
R45), raising a fault (R120), completing an instruction (R155), the console (R131 to R133) and
fetching (R154, R68). -/

namespace Sys2Proof.Machine

/-! ### Register views -/

/-- `R[X]` of a 16-bit view (R10, R21). -/
def RegFile.read16 (r : RegFile) : Reg16 → Word
  | .ax => r.ax
  | .bx => r.bx
  | .cx => r.cx
  | .dx => r.dx
  | .si => r.si
  | .di => r.di
  | .bp => r.bp
  | .sp => r.sp
  | .ip => r.ip
  | .cs => r.cs
  | .ds => r.ds
  | .es => r.es
  | .ss => r.ss

/-- `R[X] <- v` of a 16-bit view (R10, R21). -/
def RegFile.write16 (r : RegFile) (x : Reg16) (v : Word) : RegFile :=
  match x with
  | .ax => { r with ax := v }
  | .bx => { r with bx := v }
  | .cx => { r with cx := v }
  | .dx => { r with dx := v }
  | .si => { r with si := v }
  | .di => { r with di := v }
  | .bp => { r with bp := v }
  | .sp => { r with sp := v }
  | .ip => { r with ip := v }
  | .cs => { r with cs := v }
  | .ds => { r with ds := v }
  | .es => { r with es := v }
  | .ss => { r with ss := v }

/-- The 16-bit view an 8-bit view is half of (R23). -/
def pairOf : Reg8 → Reg16
  | .al => .ax
  | .ah => .ax
  | .bl => .bx
  | .bh => .bx
  | .cl => .cx
  | .ch => .cx
  | .dl => .dx
  | .dh => .dx

/-- Whether an 8-bit view is the high-order half of its pair (R23). -/
def isHighHalf : Reg8 → Bool
  | .al => false
  | .ah => true
  | .bl => false
  | .bh => true
  | .cl => false
  | .ch => true
  | .dl => false
  | .dh => true

/-- `R[X]` of an 8-bit view: `R[XH] = R[X][15:8]`, `R[XL] = R[X][7:0]` (R23). -/
def RegFile.read8 (r : RegFile) (x : Reg8) : Byte :=
  if isHighHalf x then highByte (r.read16 (pairOf x)) else lowByte (r.read16 (pairOf x))

/-- `R[X] <- v` of an 8-bit view: the other half is unchanged (R23). -/
def RegFile.write8 (r : RegFile) (x : Reg8) (v : Byte) : RegFile :=
  let w := r.read16 (pairOf x)
  r.write16 (pairOf x) (if isHighHalf x then joinBytes v (lowByte w) else joinBytes (highByte w) v)

/-- The state with a 16-bit view written. -/
def State.setReg16 (s : State) (x : Reg16) (v : Word) : State :=
  { s with regs := s.regs.write16 x v }

/-- The state with an 8-bit view written. -/
def State.setReg8 (s : State) (x : Reg8) (v : Byte) : State :=
  { s with regs := s.regs.write8 x v }

/-! ### Memory -/

/-- The byte at an address: the listed one, or the reset value (R36, R39). -/
def Memory.byteAt : Memory → Nat → Byte
  | [], _ => Config.unlistedByte
  | (b, v) :: m, a => if a = b then v else Memory.byteAt m a

/-- Put a byte at an address of the list, keeping the addresses rising. -/
def Memory.insertCell : Memory → Nat → Byte → Memory
  | [], a, v => [(a, v)]
  | (b, w) :: m, a, v =>
    if a < b then (a, v) :: (b, w) :: m
    else if a = b then (a, v) :: m
    else (b, w) :: Memory.insertCell m a v

/-- Take an address off the list. -/
def Memory.eraseCell : Memory → Nat → Memory
  | [], _ => []
  | (b, w) :: m, a => if a = b then Memory.eraseCell m a else (b, w) :: Memory.eraseCell m a

/-- Store a byte, keeping the canonical form: a byte equal to what an unlisted address reads as is
not listed (R40). -/
def Memory.setByte (m : Memory) (a : Nat) (v : Byte) : Memory :=
  if v = Config.unlistedByte then m.eraseCell a else m.insertCell a v

/-- The cells are canonical and start at `lo` or above. -/
def Memory.wfFrom (lo : Nat) : Memory → Bool
  | [] => true
  | (a, v) :: m =>
    decide (lo ≤ a) && decide (a < Config.memSize) && decide (v ≠ Config.unlistedByte)
      && Memory.wfFrom (a + 1) m

/-- The canonical form: addresses strictly rising and inside memory, no byte equal to what an
unlisted address reads as. -/
def Memory.wf (m : Memory) : Bool := m.wfFrom 0

/-- The cells of a byte string placed from an address upward (R146). -/
def imageCells : Nat → List Byte → Memory
  | _, [] => []
  | a, b :: bs =>
    if b = Config.unlistedByte then imageCells (a + 1) bs else (a, b) :: imageCells (a + 1) bs

/-- What a checked access answers: a value, or the first address outside memory (R41, R123). -/
inductive Access (α : Type) where
  | ok (value : α)
  | outOfRange (addr : Int)
deriving DecidableEq, Repr

/-- The address is one of 0x0000 to 0xFFFF (R37, R41). -/
def inMemory (a : Int) : Bool := decide (0 ≤ a) && decide (a < Config.memSize)

/-- `MemRead(addr, 1)` (R39, R41). -/
def readByte (m : Memory) (a : Int) : Access Byte :=
  if inMemory a then .ok (m.byteAt a.toNat) else .outOfRange a

/-- `MemRead(addr, 2)`: the low-order byte at the lower address (R39, R41). -/
def readWord (m : Memory) (a : Int) : Access Word :=
  if inMemory a then
    if inMemory (a + 1) then .ok (joinBytes (m.byteAt (a + 1).toNat) (m.byteAt a.toNat))
    else .outOfRange (a + 1)
  else .outOfRange a

/-- `MemWrite(addr, 2, v)`: both addresses are checked before either byte is written (R40, R41). -/
def writeWord (m : Memory) (a : Int) (v : Word) : Access Memory :=
  if inMemory a then
    if inMemory (a + 1) then
      .ok ((m.setByte a.toNat (lowByte v)).setByte (a + 1).toNat (highByte v))
    else .outOfRange (a + 1)
  else .outOfRange a

/-- `MemWrite(addr, 1, v)` (R40, R41). No instruction of the subset stores one byte (R47). -/
def writeByte (m : Memory) (a : Int) (v : Byte) : Access Memory :=
  if inMemory a then .ok (m.setByte a.toNat v) else .outOfRange a

/-- The bytes of memory from an address upward, at most `n`, stopping at the end of memory. -/
def bytesFrom (m : Memory) (a : Nat) : Nat → List Byte
  | 0 => []
  | n + 1 => if a < Config.memSize then m.byteAt a :: bytesFrom m (a + 1) n else []

/-! ### Faults and completion -/

/-- `pc_fetch - PROGRAM_BASE`, the offset a fault record carries (R122, R123). -/
def State.offset (s : State) : Int := s.pc - Config.programBase

/-- `raise F(info)`: the step ends here and the status says why; `pc` and `count` are not updated
(R120). What else the faulted state holds is not observable (R121; DEDUCED, log 7). -/
def State.raise (k : FaultKind) (s : State) : Host.Outcome State Fault Refusal :=
  .next { s with status := .faulted k }

/-- The handler returned: `pc` takes its result and `count` goes up by 1 (R151, R155). -/
def State.complete (next : Int) (s : State) : Host.Outcome State Fault Refusal :=
  .next { s with pc := next, count := s.count + 1 }

/-! ### The stack -/

/-- The address of the stack word at the current SP, `STACK_TOP - zext_16(R[SP])` (R26). -/
def State.stackAddress (s : State) : Int := Config.stackTop - (s.regs.read16 .sp).toNat

/-- SP advanced by 2, modulo 2^16 (R26, R44). -/
def State.advanceSp (s : State) : State := s.setReg16 .sp (s.regs.read16 .sp + 2)

/-- SP retreated by 2, modulo 2^16 (R26, R45). -/
def State.retreatSp (s : State) : State := s.setReg16 .sp (s.regs.read16 .sp - 2)

/-- `Push16(v)`: SP advances, then the word is stored at the new stack address (R44). -/
def State.push16 (v : Word) (s : State) : Access State :=
  match writeWord s.mem s.advanceSp.stackAddress v with
  | .ok m => .ok { s.advanceSp with mem := m }
  | .outOfRange a => .outOfRange a

/-- `Pop16()`: the word is read at the stack address, then SP retreats; the bytes stay (R45). -/
def State.pop16 (s : State) : Access (Word × State) :=
  match readWord s.mem s.stackAddress with
  | .ok v => .ok (v, s.retreatSp)
  | .outOfRange a => .outOfRange a

/-! ### The console -/

/-- The byte the next `ConsoleIn()` answers: the host's next byte, or any byte when the host has
supplied none (R131; log 5). -/
def State.nextConsoleByte (s : State) : Byte :=
  match s.input with
  | b :: _ => b
  | [] => Config.consoleByte s.consoleReads

/-- The state after a `ConsoleIn()` (R131). -/
def State.afterConsoleIn (s : State) : State :=
  { s with input := s.input.tail, consoleReads := s.consoleReads + 1 }

/-- `ConsoleOut(b)` for each byte of `bs`, in order (R132). -/
def State.consoleOut (bs : List Byte) (s : State) : State := { s with out := s.out ++ bs }

/-- The byte the next `Draw8()` answers: any byte (R133; log 6). -/
def State.nextDraw (s : State) : Byte := Config.drawByte s.draws

/-- The state after a `Draw8()` (R133). -/
def State.afterDraw (s : State) : State := { s with draws := s.draws + 1 }

/-- The bytes the print service writes: from address `a`, at most `n`, up to but not including the
first `$` (R112). -/
def scanString (m : Memory) (a : Nat) : Nat → List Byte
  | 0 => []
  | n + 1 =>
    if m.byteAt a = Config.stringEnd then [] else m.byteAt a :: scanString m (a + 1) n

/-! ### Fetch and the loop's checks -/

/-- What fetching and decoding at `pc` answers. -/
inductive Fetched where
  | instr (i : Instr)
  | raises (k : FaultKind)
deriving DecidableEq, Repr

/-- The bytes an instruction at `pc` can hold: those of `pc`, `pc + 1`, `pc + 2` inside memory. -/
def State.window (s : State) : List Byte := bytesFrom s.mem s.pc.toNat 3

/-- The byte after the opcode, for the record of an invalid opcode; the read cannot fault (R122). -/
def State.byteAfterOpcode (s : State) : Option Byte :=
  match readByte s.mem (s.pc + 1) with
  | .ok b => some b
  | .outOfRange _ => none

/-- Fetch the opcode byte, dispatch on it and read its operand bytes, in this order of checks
(R126, R154, R61, R68). -/
def State.fetchDecode (s : State) : Fetched :=
  match readByte s.mem s.pc with
  | .outOfRange a => .raises (.memoryBounds a s.offset)
  | .ok _ =>
    match decode s.window with
    | .instr i _ => .instr i
    | .invalidOpcode op => .raises (.invalidOpcode op s.byteAfterOpcode s.offset)
    | .missingOperand k => .raises (.memoryBounds (s.pc + k) s.offset)
    | .noByte => .raises (.memoryBounds s.pc s.offset)

/-- The status is terminal (R31). -/
def State.ended (s : State) : Bool :=
  match s.status with
  | .running => false
  | .halted _ => true
  | .boundStop _ => true
  | .faulted _ => true

/-- `count >= P_MAX_INSTRUCTIONS` (R151, R152). -/
def State.atInstructionBound (s : State) : Bool :=
  match s.maxInstructions with
  | none => false
  | some n => decide (n ≤ s.count)

/-- The loop's three checks, in their order (R151): the terminal status the loop sets, if any. -/
def State.loopStop (s : State) : Option Status :=
  if s.halted then some (.halted s.rc)
  else if s.atInstructionBound then some (.boundStop .instructionCount)
  else if (Config.memSize : Int) ≤ s.pc then some (.boundStop .addressTop)
  else none

/-- Store bytes from an address upward, leaving out those past the end of memory. -/
def storeBytes (m : Memory) (a : Nat) : List Byte → Memory
  | [] => m
  | b :: bs => if a < Config.memSize then storeBytes (m.setByte a b) (a + 1) bs else m

end Sys2Proof.Machine
end

