-- ==== Sys2Proof/Machine/Operands.lean ====
section
/-! DEFINITION. What the instructions compute from their operand bytes: targets, the return offset
and an INT's vector (R64 to R67, R80, R81, R84, R101). -/

namespace Sys2Proof.Machine

/-- `sext_8(v)`: a byte read as two's complement, -128..127 (R9, R65). -/
def sext8 (v : Byte) : Int := v.toInt

/-- `p`, the operand pointer: the address after the opcode byte (R12). -/
def State.operandPointer (s : State) : Int := s.pc + 1

/-- JMP's target, the end address `p + 1` plus the displacement, not wrapped (R80, R81, R83). -/
def State.jmpTarget (s : State) (rel8 : Byte) : Int := s.operandPointer + sext8 rel8 + 1

/-- CALL's target, the end address `p + 2` plus the displacement, not wrapped (R80, R81, R84). -/
def State.callTarget (s : State) (rel8 : Byte) : Int := s.operandPointer + sext8 rel8 + 2

/-- The value CALL pushes, `(p + 2 - PROGRAM_BASE) mod 2^16`: a program offset (R84, R85). -/
def State.returnOffset (s : State) : Word :=
  BitVec.ofInt 16 (s.operandPointer + 2 - Config.programBase)

/-- RET's target, `PROGRAM_BASE + zext_16(off)`, not wrapped (R86). -/
def retTarget (off : Word) : Int := (Config.programBase : Int) + off.toNat

/-- `imm8 - VECTOR_BASE`, an integer -32..223 (R97, R101). -/
def intVector (imm8 : Byte) : Int := (imm8.toNat : Int) - Config.vectorBase

end Sys2Proof.Machine
end

