-- ==== Sys2Proof/Machine/ControlTransfer.lean ====
section
/-! DEFINITION. JMP, CALL and RET (41_control_transfer.md). In each, `s.pc` is the address of the
opcode byte and the operands have been read (R69, R85). -/

namespace Sys2Proof.Machine

/-- JMP rel8: `return p + sext_8(rel8) + 1`; the target is not checked (R81, R83). -/
def execJmp (rel8 : Byte) (s : State) : Host.Outcome State Fault Refusal :=
  s.complete (s.jmpTarget rel8)

/-- CALL rel8: push the program offset of the next instruction, then go to the target; `x8` is not
used (R67, R84, R85). A push outside memory raises MemoryBounds after SP has advanced (R44). -/
def execCall (rel8 : Byte) (_x8 : Option Byte) (s : State) : Host.Outcome State Fault Refusal :=
  match s.push16 s.returnOffset with
  | .ok t => t.complete (s.callTarget rel8)
  | .outOfRange a => s.advanceSp.raise (.memoryBounds a s.offset)

/-- RET: pop a program offset and go to `PROGRAM_BASE` plus it (R86, R87). A pop outside memory
raises MemoryBounds before SP changes (R45). -/
def execRet (s : State) : Host.Outcome State Fault Refusal :=
  match s.pop16 with
  | .ok (off, t) => t.complete (retTarget off)
  | .outOfRange a => s.raise (.memoryBounds a s.offset)

end Sys2Proof.Machine
end

