-- ==== Sys2Proof/Machine/DataTransfer.lean ====
section
/-! DEFINITION. NOP and the register moves (40_data_transfer.md). In each, `s.pc` is the address of
the opcode byte and the operands have been read (R69). -/

namespace Sys2Proof.Machine

/-- NOP: `return p` (R77). -/
def execNop (s : State) : Host.Outcome State Fault Refusal :=
  s.complete s.operandPointer

/-- MOV AH, imm8: `R[AH] <- imm8; return p + 1` (R78). -/
def execMovAh (imm8 : Byte) (s : State) : Host.Outcome State Fault Refusal :=
  (s.setReg8 .ah imm8).complete (s.operandPointer + 1)

/-- MOV DX, imm16: `R[DX] <- imm16; return p + 2` (R79). -/
def execMovDx (imm16 : Word) (s : State) : Host.Outcome State Fault Refusal :=
  (s.setReg16 .dx imm16).complete (s.operandPointer + 2)

end Sys2Proof.Machine
end

