-- ==== Sys2Proof/Machine/Flags.lean ====
section
/-! DEFINITION. The engine has no flags register and no instruction computes a status flag (R29,
C6). Its one flag is the halt flag, set with the return code by a terminating service (R30). -/

namespace Sys2Proof.Machine

/-- `halt(rc)`: the halt flag is set and the return code written, in one step (R12, R30). The status
stays `Running` until the loop's next check (R116, R151). -/
def State.halt (rc : Byte) (s : State) : State := { s with halted := true, rc := rc }

end Sys2Proof.Machine
end

