-- ==== Sys2Proof/Machine/Interrupt.lean ====
section
/-! DEFINITION. INT imm8, the interrupt dispatch table and its services (42_interrupt.md). A service
runs inside the INT step and saves nothing (R96, R98, R99). -/

namespace Sys2Proof.Machine

/-- The services of the interrupt dispatch table, one for each overridden slot (R100, R114). -/
inductive Service where
  | vector0Terminate
  | terminate
  | readChar1
  | echoAndDraw2
  | writeChar5
  | writeAndDraw6
  | readChar7
  | readChar8
  | printString9
  | terminateWithCode76
deriving DecidableEq, Repr

/-- The interrupt dispatch table; `none` is the default, the invalid-interrupt handler (R100, R102,
R105). -/
def interruptTable (vector : Int) (selector : Byte) : Option Service :=
  if vector = 0 then some .vector0Terminate
  else if vector = 1 then
    if selector = 0 then some .terminate
    else if selector = 1 then some .readChar1
    else if selector = 2 then some .echoAndDraw2
    else if selector = 5 then some .writeChar5
    else if selector = 6 then some .writeAndDraw6
    else if selector = 7 then some .readChar7
    else if selector = 8 then some .readChar8
    else if selector = 9 then some .printString9
    else if selector = 76 then some .terminateWithCode76
    else none
  else none

/-- `R[AL] <- ConsoleIn()`; nothing is echoed (R106, R110, R111). -/
def State.readCharIntoAl (s : State) : State := s.afterConsoleIn.setReg8 .al s.nextConsoleByte

/-- `ConsoleOut(R[DL])` (R107, R108, R109). -/
def State.writeDl (s : State) : State := s.consoleOut [s.regs.read8 .dl]

/-- `R[AL] <- Draw8()`: any byte (R107, R109, R133). -/
def State.drawIntoAl (s : State) : State := s.afterDraw.setReg8 .al s.nextDraw

/-- Vector 0, any selector: `halt(0)` (R103). -/
def serviceVector0Terminate (s : State) : State := s.halt 0

/-- Vector 1, selector 0: `halt(0)` (R104). -/
def serviceTerminate (s : State) : State := s.halt 0

/-- Vector 1, selector 1: read a character into AL (R106). -/
def serviceReadChar1 (s : State) : State := s.readCharIntoAl

/-- Vector 1, selector 2: write DL, then AL is any byte (R107). -/
def serviceEchoAndDraw2 (s : State) : State := s.writeDl.drawIntoAl

/-- Vector 1, selector 5: write DL (R108). -/
def serviceWriteChar5 (s : State) : State := s.writeDl

/-- Vector 1, selector 6: write DL, then AL is any byte (R109). -/
def serviceWriteAndDraw6 (s : State) : State := s.writeDl.drawIntoAl

/-- Vector 1, selector 7: read a character into AL (R110). -/
def serviceReadChar7 (s : State) : State := s.readCharIntoAl

/-- Vector 1, selector 8: read a character into AL (R111). -/
def serviceReadChar8 (s : State) : State := s.readCharIntoAl

/-- Vector 1, selector 9: print the bytes from the absolute address DX up to the first `$` or the
end of memory (R112). -/
def servicePrintString9 (s : State) : State :=
  let dx := (s.regs.read16 .dx).toNat
  s.consoleOut (scanString s.mem dx (Config.memSize - dx))

/-- Vector 1, selector 76: `halt(R[AL])` (R113). -/
def serviceTerminateWithCode76 (s : State) : State := s.halt (s.regs.read8 .al)

/-- Perform a service (R100). -/
def runService : Service → State → State
  | .vector0Terminate, s => serviceVector0Terminate s
  | .terminate, s => serviceTerminate s
  | .readChar1, s => serviceReadChar1 s
  | .echoAndDraw2, s => serviceEchoAndDraw2 s
  | .writeChar5, s => serviceWriteChar5 s
  | .writeAndDraw6, s => serviceWriteAndDraw6 s
  | .readChar7, s => serviceReadChar7 s
  | .readChar8, s => serviceReadChar8 s
  | .printString9, s => servicePrintString9 s
  | .terminateWithCode76, s => serviceTerminateWithCode76 s

/-- INT imm8: run the service of (imm8 - VECTOR_BASE, AH) and return `p + 1`, also when the service
halts the run; a pair with no service raises InvalidInterrupt (R97, R102, R105, R116, R124). -/
def execInt (imm8 : Byte) (s : State) : Host.Outcome State Fault Refusal :=
  match interruptTable (intVector imm8) (s.regs.read8 .ah) with
  | some v => (runService v s).complete (s.operandPointer + 1)
  | none => s.raise (.invalidInterrupt (intVector imm8) (s.regs.read8 .ah) imm8)

end Sys2Proof.Machine
end

