-- ==== Sys2Proof/Machine/Dispatch.lean ====
section
/-! DEFINITION. `exec`: the handler of each instruction (R61), one arm per constructor. -/

namespace Sys2Proof.Machine

def exec (i : Instr) (s : State) : Host.Outcome State Fault Refusal :=
  match i with
  | .nop => Sys2Proof.Machine.execNop s
  | .movAh imm8 => Sys2Proof.Machine.execMovAh imm8 s
  | .movDx imm16 => Sys2Proof.Machine.execMovDx imm16 s
  | .ret => Sys2Proof.Machine.execRet s
  | .int imm8 => Sys2Proof.Machine.execInt imm8 s
  | .call rel8 x8 => Sys2Proof.Machine.execCall rel8 x8 s
  | .jmp rel8 => Sys2Proof.Machine.execJmp rel8 s

end Sys2Proof.Machine
end

