-- ==== Sys2Proof/Machine/Step.lean ====
section
/-! DEFINITION. One step of the execution loop (R151), and where a program's next instruction is
placed. -/

namespace Sys2Proof.Machine

/-- One step (R151): no step follows a terminal status (R31; log 8); the loop's three checks set a
terminal status and change nothing else; otherwise the instruction at `pc` is fetched and executed,
or the fetch's fault is raised. -/
def step (s : State) : Host.Outcome State Fault Refusal :=
  if s.ended then .fault .runEnded
  else
    match s.loopStop with
    | some st => .next { s with status := st }
    | none =>
      match s.fetchDecode with
      | .instr i => exec i s
      | .raises k => s.raise k

/-- The state with the instruction of opcode-table bits `w` stored where the next step fetches: its
three bytes from `pc` upward, without those past the end of memory. It stands for the host's load of
the program (R146; log 12). A `pc` outside memory is left as it is. -/
def State.withFetchWord (s : State) (nbits w : Nat) : State :=
  if inMemory s.pc then { s with mem := storeBytes s.mem s.pc.toNat (tableBytes nbits w) } else s

end Sys2Proof.Machine
end

