-- ==== Sys2Proof/Machine/Load.lean ====
section
/-! DEFINITION. The image-load interface (R145 to R147): what the host does before the first step. -/

namespace Sys2Proof.Machine

/-- The outcome of a load (R147): a state ready to run, or one of the two load failures. -/
inductive LoadResult where
  | loaded (s : State)
  /-- The host could not supply an image (R147, R125 code 4). -/
  | loadError
  /-- The image is longer than `MAX_IMAGE` (R147, R125 code 5). -/
  | capacityError
deriving DecidableEq, Repr

/-- The reset state with an image in memory, the host's instruction bound and its input bytes
(R36, R146, R152, R131). -/
def startState (bound : Option Nat) (input : List Byte) (image : List Byte) : State :=
  { State.reset with
    mem := imageCells Config.programBase image
    input := input
    maxInstructions := bound }

/-- Load an image, or `none` where the host could read none (R145 to R147). -/
def load (bound : Option Nat) (input : List Byte) : Option (List Byte) → LoadResult
  | none => .loadError
  | some image =>
    if image.length ≤ Config.maxImage then .loaded (startState bound input image) else .capacityError

end Sys2Proof.Machine
end

