-- ==== Sys2Proof/Machine/HostInterface.lean ====
section
/-! DEFINITION. What the host sees of a run: its observation (R121, R156), the codes of the fault
kinds (R125) and the process exit status as far as the spec fixes it (R134). -/

namespace Sys2Proof.Machine

/-- What is observed of a run that has ended (R156). -/
inductive Observation where
  /-- A halt or a bound stop: the status, `out`, the registers, memory, `pc` and `count`. -/
  | stopped (status : Status) (out : List Byte) (regs : RegFile) (mem : Memory) (pc : Int) (count : Nat)
  /-- A fault: only the record and `out` (R121). -/
  | faulted (kind : FaultKind) (out : List Byte)
deriving DecidableEq, Repr

/-- The observation of a run that has ended; a running one has none (R156). -/
def State.observe (s : State) : Option Observation :=
  match s.status with
  | .running => none
  | .halted rc => some (.stopped (.halted rc) s.out s.regs s.mem s.pc s.count)
  | .boundStop r => some (.stopped (.boundStop r) s.out s.regs s.mem s.pc s.count)
  | .faulted k => some (.faulted k s.out)

/-- The code of a step's fault kind (R125). -/
def faultCode : FaultKind → Nat
  | .invalidOpcode _ _ _ => 1
  | .invalidInterrupt _ _ _ => 2
  | .memoryBounds _ _ => 3

/-- The code of a load failure; a successful load has none (R125). -/
def loadFailureCode : LoadResult → Option Nat
  | .loaded _ => none
  | .loadError => some 4
  | .capacityError => some 5

/-- Whether the process may exit with `e` after a run that ended with this status (R134). A halt is
a normal completion: 0, or `rc` under the reading the spec leaves unsettled (C4). A fault gives a
non-zero status. A bound stop gives the OPEN `P_BOUND_EXIT_STATUS`. Log 4. -/
def exitStatusAllowed (e : Nat) : Status → Bool
  | .running => false
  | .halted rc => decide (e = 0) || decide (e = rc.toNat)
  | .boundStop _ => decide (e = Config.boundExitStatus)
  | .faulted _ => decide (e ≠ 0)

/-- Whether the process may exit with `e` after a load that failed (R134). -/
def loadExitStatusAllowed (e : Nat) : LoadResult → Bool
  | .loaded _ => false
  | .loadError => decide (e ≠ 0)
  | .capacityError => decide (e ≠ 0)

end Sys2Proof.Machine
end

