-- ==== Sys2Proof/Machine/Listing.lean ====
section
/-! DEFINITION. The assembler's computation of operands (R72) and the reverse map a disassembler
uses (R75). Neither is used by a step. -/

namespace Sys2Proof.Machine

/-- `JMP t` at address `a`, where `t` is within reach (R72). -/
def assembleJmp (a t : Int) : Option Instr :=
  if -128 ≤ t - (a + 2) ∧ t - (a + 2) ≤ 127 then some (.jmp (BitVec.ofInt 8 (t - (a + 2)))) else none

/-- `CALL t` at address `a`, where `t` is within reach; `x8` is the sign fill (R72). -/
def assembleCall (a t : Int) : Option Instr :=
  if -128 ≤ t - (a + 3) ∧ t - (a + 3) ≤ 127 then
    some (.call (BitVec.ofInt 8 (t - (a + 3))) (some (if 0 ≤ t - (a + 3) then 0x00 else 0xFF)))
  else none

/-- The operand a listing line prints (R75). -/
inductive ListedOperand where
  | none
  | imm8 (v : Byte)
  | imm16 (v : Word)
  | target (address : Int)
deriving DecidableEq, Repr

/-- A line of a listing: an instruction or a data byte (R75). -/
inductive ListingLine where
  | instr (mnemonic : Opcode) (operand : ListedOperand)
  | data (b : Byte)
deriving DecidableEq, Repr

/-- The line of an instruction at address `a`: immediates as they are, JMP and CALL as their target
addresses (R75, R83, R84). -/
def listInstr (a : Int) : Instr → ListingLine
  | .nop => .instr .nop .none
  | .movAh imm8 => .instr .movAh (.imm8 imm8)
  | .movDx imm16 => .instr .movDx (.imm16 imm16)
  | .ret => .instr .ret .none
  | .int imm8 => .instr .int (.imm8 imm8)
  | .call rel8 _ => .instr .call (.target (a + 1 + sext8 rel8 + 2))
  | .jmp rel8 => .instr .jmp (.target (a + 1 + sext8 rel8 + 1))

/-- The line of the bytes at address `a`; an invalid byte, and an opcode byte whose operands are cut
off, print as a data byte (R75). -/
def listBytes (a : Int) (bytes : List Byte) : Option ListingLine :=
  match decode bytes with
  | .instr i _ => some (listInstr a i)
  | .invalidOpcode op => some (.data op)
  | .missingOperand _ => bytes.head?.map .data
  | .noByte => none

/-- The spelling of a mnemonic, its register operands included (R72). -/
def mnemonicText : Opcode → String
  | .nop => "NOP"
  | .movAh => "MOV AH, "
  | .movDx => "MOV DX, "
  | .ret => "RET"
  | .int => "INT "
  | .call => "CALL "
  | .jmp => "JMP "

/-- A number in hexadecimal with the prefix of R8. -/
def hexText (n : Nat) : String := "0x" ++ String.ofList (Nat.toDigits 16 n)

/-- The text of an operand (R75). -/
def operandText : ListedOperand → String
  | .none => ""
  | .imm8 v => hexText v.toNat
  | .imm16 v => hexText v.toNat
  | .target t => if 0 ≤ t then hexText t.toNat else "-" ++ hexText (-t).toNat

/-- The text of a line; a data byte is written with `db` (95_test_vectors.md section 3). -/
def lineText : ListingLine → String
  | .instr m o => mnemonicText m ++ operandText o
  | .data b => "db " ++ hexText b.toNat

end Sys2Proof.Machine
end

