-- ==== Sys2Proof/Safety.lean ====
section
/-! DEFINITION. The terms claims are stated in: when the loop goes on to fetch, when a state is free
of a fault, the invariants, and the sequences and comparisons of runs that the rules speak of. -/

namespace Sys2Proof.Machine

/-- The loop goes on to fetch, and the fetch is inside memory: the status is Running, none of the
three checks of R151 stops the run, and `pc` is not negative (R154). -/
abbrev State.Ready (s : State) : Prop :=
  s.status = .running ∧ s.halted = false ∧ s.atInstructionBound = false ∧
    0 ≤ s.pc ∧ s.pc < (Config.memSize : Int)

/-- No fault has been raised (R31, R120). -/
abbrev State.FaultFree (s : State) : Prop := ∀ k, s.status ≠ .faulted k

/-- A safe run: no state it comes to is faulted. -/
def SafeRun (s : State) : Prop :=
  ∀ n t, Host.Core.run Sys2Proof.core n s = .next t → t.FaultFree

/-! ### Invariants -/

/-- SP is even: it "starts at 0 and only ever changes by ±2" (R26). -/
abbrev State.SpEven (s : State) : Prop := s.regs.sp.toNat % 2 = 0

/-- The terminal status Halted(rc) is reached only with the halt flag set, and carries the return
code (R30, R31). -/
abbrev State.HaltAgrees (s : State) : Prop :=
  ∀ rc, s.status = .halted rc → s.halted = true ∧ s.rc = rc

/-- The farthest a transfer reaches below and above memory: JMP at 0x0000 with -128, and RET with
the offset 0xFFFF (R81, R83, R86). -/
abbrev State.PcInReach (s : State) : Prop := -126 ≤ s.pc ∧ s.pc ≤ 0x100FF

/-- No more instructions have completed than the bound allows (R152). -/
abbrev State.CountInBound (s : State) : Prop := ∀ n, s.maxInstructions = some n → s.count ≤ n

/-! ### Closed code: when a step stays free of a fault

Of the faults a step can raise (R126), a program rules out three by its bytes alone: every address
it comes to holds an instruction, and every INT it comes to has a service. The fourth, a push or a
pop outside memory, needs room on the stack. -/

/-- The selectors of INT 0x21 that have a service (R105). -/
abbrev servedSelector (selector : Byte) : Prop := selector ∈ [0, 1, 2, 5, 6, 7, 8, 9, 76]

/-- Execution may go on at `a`: it is one of the code's addresses, or the loop stops there with
`BoundStop(AddressTop)` (R153). -/
def goesOn (code : Nat → Prop) (a : Int) : Prop :=
  (Config.memSize : Int) ≤ a ∨ ∃ n : Nat, a = n ∧ code n

/-- The instruction at `a` leads only to addresses where execution may go on, and loads AH only with
a selector that has a service. RET's successor is a stack word, and CALL's return offset becomes one
(R77 to R79, R83 to R86, R97). -/
def leadsToCode (code : Nat → Prop) (a : Nat) : Instr → Prop
  | .nop => goesOn code (a + 1)
  | .movAh imm8 => servedSelector imm8 ∧ goesOn code (a + 2)
  | .movDx _ => goesOn code (a + 3)
  | .ret => True
  | .int imm8 => imm8 = 0x20 ∨ (imm8 = 0x21 ∧ goesOn code (a + 2))
  | .call rel8 _ => goesOn code (a + 3 + sext8 rel8) ∧
      goesOn code (retTarget (BitVec.ofInt 16 (a + 3 - Config.programBase)))
  | .jmp rel8 => goesOn code (a + 2 + sext8 rel8)

/-- The code is closed and lies below `top`: each of its addresses holds an instruction that leads
only to the code (R61, R160). -/
def codeClosed (code : Nat → Prop) (top : Nat) (m : Memory) : Prop :=
  ∀ a, code a → a + 3 ≤ top ∧
    ∃ i rest, decode (bytesFrom m a 3) = .instr i rest ∧ leadsToCode code a i

/-- The word a RET pops when SP is `2 * k` (R26, R45). -/
def Memory.stackWord (m : Memory) (k : Nat) : Word :=
  joinBytes (m.byteAt (0x10000 - 2 * k + 1)) (m.byteAt (0x10000 - 2 * k))

/-- The run stays in closed code: the code lies below `top` and the stack at or above it, the run is
halted or at an address where it may go on, AH holds a selector that has a service, and every word
on the stack is the offset of an address where execution may go on. -/
structure State.InClosedCode (s : State) (code : Nat → Prop) (top : Nat) : Prop where
  inMemory : top ≤ Config.memSize
  closed : codeClosed code top s.mem
  served : servedSelector (s.regs.read8 .ah)
  here : s.halted = true ∨ goesOn code s.pc
  spEven : s.SpEven
  stackAbove : s.regs.sp.toNat + top ≤ Config.memSize
  returns : ∀ k, 1 ≤ k → 2 * k ≤ s.regs.sp.toNat → goesOn code (retTarget (s.mem.stackWord k))

/-- The next instruction has room on the stack: a CALL pushes at `top` or above, a RET finds a word
(R44, R45, R160, R161). -/
def State.StackRoom (s : State) (top : Nat) : Prop :=
  s.Ready →
    (s.mem.byteAt s.pc.toNat = 0xE8 → s.regs.sp.toNat + 2 + top ≤ Config.memSize) ∧
    (s.mem.byteAt s.pc.toNat = 0xC3 → 2 ≤ s.regs.sp.toNat)

/-! ### Sequences of pushes and pops -/

/-- Push each word, the first of the list first (R44, R46). -/
def State.pushAll : List Word → State → Access State
  | [], s => .ok s
  | v :: vs, s =>
    match s.push16 v with
    | .ok t => State.pushAll vs t
    | .outOfRange a => .outOfRange a

/-- Pop `n` words, the first popped first in the list (R45, R46). -/
def State.popMany : Nat → State → Access (List Word × State)
  | 0, s => .ok ([], s)
  | n + 1, s =>
    match s.pop16 with
    | .outOfRange a => .outOfRange a
    | .ok (v, t) =>
      match State.popMany n t with
      | .outOfRange a => .outOfRange a
      | .ok (vs, u) => .ok (v :: vs, u)

/-! ### Comparing runs -/

/-- The registers with those no rule reads or writes taken from `q`: all but AX, DX and SP (R24). -/
def RegFile.withInert (r q : RegFile) : RegFile := { q with ax := r.ax, dx := r.dx, sp := r.sp }

/-- The state with the registers no rule reads or writes taken from `q`. -/
def State.withInert (s : State) (q : RegFile) : State := { s with regs := s.regs.withInert q }

/-- Apply a function to the state an outcome holds, if it holds one. -/
def onNext (f : State → State) :
    Host.Outcome State Fault Refusal → Host.Outcome State Fault Refusal
  | .next s => .next (f s)
  | .fault r => .fault r
  | .refused r => .refused r

end Sys2Proof.Machine
end

