-- ==== Sys2Proof/Certificates/Slice0/Obligations.lean ====
section
/-! DEFINITION. The statements for the provers. Each docstring names the rule of spec/ or the decision
of the spec, and the log entry, that it formalises. -/

open Sys2Proof Sys2Proof.Machine

/-! ### Encoding -/

/-- Words written out from the encodings of R57 and R59 decode to the instructions they stand for.
The NOP byte and CALL's length are the spec's decisions D1 and D2 (log 1). -/
def Obligations.SpecWordsDecodeToTheirInstructions : Prop :=
  decode [0x5A] = .instr .nop [] ∧
  decode [0xB4, 0x09] = .instr (.movAh 0x09) [] ∧
  decode [0xBA, 0x0B, 0x01] = .instr (.movDx 0x010B) [] ∧
  decode [0xC3] = .instr .ret [] ∧
  decode [0xCD, 0x21] = .instr (.int 0x21) [] ∧
  decode [0xE8, 0x03, 0x7F] = .instr (.call 0x03 (some 0x7F)) [] ∧
  decode [0xEB, 0xFE] = .instr (.jmp 0xFE) []

/-- Decoding the encoding of a well-formed instruction gives it back, with every operand at every
value, whatever bytes follow (R57, R70). -/
def Obligations.DecodeOfEncodeIsTheInstruction : Prop :=
  ∀ (i : Instr) (rest : List Byte), i.wellFormed = true → decode (encode i ++ rest) = .instr i rest

/-- The other direction: bytes that decode are the encoding of what they decode to, so no two byte
sequences of one length stand for one instruction (R57, R70). -/
def Obligations.EncodeOfDecodeIsTheBytes : Prop :=
  ∀ (bytes : List Byte) (i : Instr) (rest : List Byte),
    decode bytes = .instr i rest → encode i ++ rest = bytes

/-- R62: every opcode byte but the seven of R59 is invalid, 249 of them, and fetching one raises
InvalidOpcode with the opcode, the byte after it (none past the end of memory) and the offset from
the program's start, after which no step follows. The NOP byte is the spec's decision D1 (log 1), the
record's "none" its decision D31. -/
def Obligations.UnlistedOpcodeBytesFault : Prop :=
  (∀ op : Byte, opcodeTable op = none ↔ op ∉ [0x5A, 0xB4, 0xBA, 0xC3, 0xCD, 0xE8, 0xEB]) ∧
  ((List.range 256).filter fun n => opcodeTable (BitVec.ofNat 8 n) = none).length = 249 ∧
  ∀ s : State, s.Ready →
    s.mem.byteAt s.pc.toNat ∉ [0x5A, 0xB4, 0xBA, 0xC3, 0xCD, 0xE8, 0xEB] →
    ∃ t, step s = .next t ∧
      t.status = .faulted (.invalidOpcode (s.mem.byteAt s.pc.toNat)
        (if s.pc + 1 < 0x10000 then some (s.mem.byteAt (s.pc.toNat + 1)) else none)
        (s.pc - 0x100)) ∧
      t.out = s.out ∧ step t = .fault .runEnded

/-- No operand byte makes an instruction invalid (R63, derived in the spec). -/
def Obligations.OperandBytesAreAllLegal : Prop :=
  ∀ (op b1 b2 : Byte) (rest : List Byte), opcodeTable op ≠ none →
    ∃ i tail, decode (op :: b1 :: b2 :: rest) = .instr i tail

/-- The parameter's byte, and no other, is NOP; of 0x5A and 0x90 the one that is not NOP is invalid;
this hardware takes 0x5A (R60, decision D1; log 1). -/
def Obligations.NopIsTheParameterByteOnly : Prop :=
  (∀ nop op : Byte, opcodeTableWith nop op = some .nop ↔ op = nop) ∧
  (∀ nop op : Byte, nop = 0x5A ∨ nop = 0x90 → op = 0x5A ∨ op = 0x90 → op ≠ nop →
    opcodeTableWith nop op = none) ∧
  (∀ op : Byte, opcodeTable op = opcodeTableWith 0x5A op)

/-! ### The step -/

/-- When the bytes at `pc` decode, the step is `exec` of the instruction at that state (R61, R151).
The bytes are those of `pc`, `pc + 1` and `pc + 2` that lie inside memory. -/
def Obligations.StepExecutesTheDecodedInstruction : Prop :=
  (∀ (s : State) (i : Instr) (rest : List Byte), s.Ready →
    decode s.window = .instr i rest → step s = exec i s) ∧
  ∀ s : State, 0 ≤ s.pc →
    (s.pc + 2 < 0x10000 → s.window = [s.mem.byteAt s.pc.toNat, s.mem.byteAt (s.pc.toNat + 1),
      s.mem.byteAt (s.pc.toNat + 2)]) ∧
    (s.pc = 0xFFFE → s.window = [s.mem.byteAt 0xFFFE, s.mem.byteAt 0xFFFF]) ∧
    (s.pc = 0xFFFF → s.window = [s.mem.byteAt 0xFFFF])

/-- The instruction the host places with `withFetchWord` is the one the next step executes (the
model's stand-in for the load, log 12). -/
def Obligations.PlacedWordIsTheNextInstruction : Prop :=
  ∀ (s : State) (nbits w : Nat) (i : Instr), s.Ready → s.pc + 2 < 0x10000 →
    decodeTableWord nbits w = some i →
    step (s.withFetchWord nbits w) = exec i (s.withFetchWord nbits w)

/-- The loop's three checks, in their order, each setting the status and changing nothing else
(R151, decisions D9, D10, D20; the bound is a field, log 3). -/
def Obligations.LoopChecksStopTheRunInOrder : Prop :=
  ∀ s : State, s.status = .running →
    (s.halted = true → step s = .next { s with status := .halted s.rc }) ∧
    (s.halted = false → ∀ n, s.maxInstructions = some n → n ≤ s.count →
      step s = .next { s with status := .boundStop .instructionCount }) ∧
    (s.halted = false → (∀ n, s.maxInstructions = some n → s.count < n) → 0x10000 ≤ s.pc →
      step s = .next { s with status := .boundStop .addressTop })

/-- A step is answered exactly while the status is Running; no step follows a terminal status
(R31, R144; decisions D10, D22; log 8). -/
def Obligations.StepsFollowExactlyWhileRunning : Prop :=
  ∀ s : State, ((∃ t, step s = .next t) ↔ s.status = .running) ∧
    (s.status ≠ .running → step s = .fault .runEnded)

/-- A fetch at a negative `pc` raises MemoryBounds (R154, decisions D3, D8). -/
def Obligations.NegativePcFaultsAtFetch : Prop :=
  ∀ s : State, s.status = .running → s.halted = false → s.atInstructionBound = false → s.pc < 0 →
    ∃ t, step s = .next t ∧ t.status = .faulted (.memoryBounds s.pc (s.pc - 0x100)) ∧
      t.out = s.out ∧ t.count = s.count

/-- An operand byte past the end of memory raises MemoryBounds at 0x10000; CALL's third byte is not
read, so a CALL at 0xFFFE executes (R68, decision D3; log 11). -/
def Obligations.OperandsPastMemoryFault : Prop :=
  ∀ s : State, s.Ready →
    ((s.pc = 0xFFFF ∧ s.mem.byteAt 0xFFFF ∈ [0xB4, 0xBA, 0xCD, 0xE8, 0xEB]) ∨
        (s.pc = 0xFFFE ∧ s.mem.byteAt 0xFFFE = 0xBA) →
      ∃ t, step s = .next t ∧ t.status = .faulted (.memoryBounds 0x10000 (s.pc - 0x100)) ∧
        t.out = s.out ∧ t.count = s.count) ∧
    (s.pc = 0xFFFE → s.mem.byteAt 0xFFFE = 0xE8 →
      step s = exec (.call (s.mem.byteAt 0xFFFF) none) s)

/-- A step that raises a fault leaves `pc`, `count`, `out` and memory as they were, and no step
follows (R120, R41; decisions D3, D22, D33; log 7, log 8). Of the other fields it says nothing: a
CALL whose push faults has advanced SP (log 7). -/
def Obligations.FaultingStepsLeavePcCountOutAndMemory : Prop :=
  ∀ (s t : State) (k : FaultKind), step s = .next t → t.status = .faulted k →
    t.pc = s.pc ∧ t.count = s.count ∧ t.out = s.out ∧ t.mem = s.mem ∧ step t = .fault .runEnded

/-- Once an instruction is decoded, its step raises a fault exactly in these cases: RET on a stack
word outside memory, CALL pushing outside memory, INT with no service (R126 item 5; SP = 1 is log
15). -/
def Obligations.DecodedInstructionsFaultExactlyWhen : Prop :=
  ∀ (s t : State) (i : Instr) (rest : List Byte), s.Ready → decode s.window = .instr i rest →
    step s = .next t →
    ((∃ k, t.status = .faulted k) ↔
      (i = .ret ∧ s.regs.sp.toNat < 2) ∨
      ((∃ rel8 x8, i = .call rel8 x8) ∧ (s.regs.sp + 2).toNat < 2) ∨
      (∃ imm8, i = .int imm8 ∧ ¬ (imm8 = 0x20 ∨
        (imm8 = 0x21 ∧ s.regs.read8 .ah ∈ [0, 1, 2, 5, 6, 7, 8, 9, 76]))))

/-! ### Data transfer -/

/-- NOP changes `pc` and `count` only (R77; the byte is decision D1, log 1). -/
def Obligations.NopOnlyAdvances : Prop :=
  ∀ s : State, exec .nop s = .next { s with pc := s.pc + 1, count := s.count + 1 }

/-- R78: MOV AH, imm8. -/
def Obligations.MovAhWritesAh : Prop :=
  (∀ (imm8 : Byte) (rest : List Byte), decode (0xB4 :: imm8 :: rest) = .instr (.movAh imm8) rest) ∧
  (∀ (imm8 : Byte) (s : State), exec (.movAh imm8) s = .next { s with
    regs := { s.regs with ax := joinBytes imm8 (s.regs.read8 .al) },
    pc := s.pc + 2, count := s.count + 1 }) ∧
  (∀ (imm8 : Byte) (s t : State), exec (.movAh imm8) s = .next t →
    t.regs.read8 .ah = imm8 ∧ t.regs.read8 .al = s.regs.read8 .al ∧
    t.regs.read16 .ax = joinBytes imm8 (s.regs.read8 .al)) ∧
  (∀ s : State, s.Ready → s.pc = 0xFFFF → s.mem.byteAt 0xFFFF = 0xB4 →
    ∃ t, step s = .next t ∧ t.status = .faulted (.memoryBounds 0x10000 0xFEFF) ∧
      t.regs.read8 .ah = s.regs.read8 .ah)

/-- R79: MOV DX, imm16. -/
def Obligations.MovDxWritesDx : Prop :=
  (∀ (lo hi : Byte) (rest : List Byte),
    decode (0xBA :: lo :: hi :: rest) = .instr (.movDx (joinBytes hi lo)) rest) ∧
  (∀ (imm16 : Word) (s : State), exec (.movDx imm16) s = .next { s with
    regs := { s.regs with dx := imm16 }, pc := s.pc + 3, count := s.count + 1 }) ∧
  (∀ (lo hi : Byte) (s t : State), exec (.movDx (joinBytes hi lo)) s = .next t →
    t.regs.read8 .dl = lo ∧ t.regs.read8 .dh = hi) ∧
  (∀ s : State, s.Ready → s.pc = 0xFFFE ∨ s.pc = 0xFFFF → s.mem.byteAt s.pc.toNat = 0xBA →
    ∃ t, step s = .next t ∧ t.status = .faulted (.memoryBounds 0x10000 (s.pc - 0x100)) ∧
      t.regs.read16 .dx = s.regs.read16 .dx)

/-- The frame of every instruction when `exec` gives a next state: the registers, memory and other
state it leaves alone, its destinations named (R24, R47, R98, R115; the bytes CALL stores are at the
stack address after SP has advanced, R44). -/
def Obligations.ExecChangesOnlyItsDestinations : Prop :=
  ∀ (i : Instr) (s t : State), exec i s = .next t →
    (∀ x : Reg16,
      (match i with
        | .nop => True
        | .movAh _ => x ≠ .ax
        | .movDx _ => x ≠ .dx
        | .ret => x ≠ .sp
        | .int _ => x ≠ .ax
        | .call _ _ => x ≠ .sp
        | .jmp _ => True) → t.regs.read16 x = s.regs.read16 x) ∧
    ((∀ n, i ≠ .movAh n) → t.regs.read8 .ah = s.regs.read8 .ah) ∧
    ((∀ n, i ≠ .int n) → t.regs.read8 .al = s.regs.read8 .al ∧ t.halted = s.halted ∧
      t.rc = s.rc ∧ t.out = s.out ∧ t.input = s.input ∧ t.consoleReads = s.consoleReads ∧
      t.draws = s.draws) ∧
    ((∀ rel8 x8, i ≠ .call rel8 x8) → ∀ a : Nat, t.mem.byteAt a = s.mem.byteAt a) ∧
    (∀ rel8 x8, i = .call rel8 x8 → ∀ a : Nat, (a : Int) ≠ s.advanceSp.stackAddress →
      (a : Int) ≠ s.advanceSp.stackAddress + 1 → t.mem.byteAt a = s.mem.byteAt a) ∧
    t.maxInstructions = s.maxInstructions

/-! ### Control transfer -/

/-- R83: JMP rel8. -/
def Obligations.JmpGoesToItsTarget : Prop :=
  (∀ (rel8 : Byte) (rest : List Byte), decode (0xEB :: rel8 :: rest) = .instr (.jmp rel8) rest) ∧
  (∀ (rel8 : Byte) (s : State), exec (.jmp rel8) s =
    .next { s with pc := (s.pc + 1) + rel8.toInt + 1, count := s.count + 1 }) ∧
  (∀ s t : State, exec (.jmp 0x00) s = .next t → t.pc = s.pc + 2) ∧
  (∀ s t : State, exec (.jmp 0x7F) s = .next t → t.pc = (s.pc + 1) + 128) ∧
  (∀ s t : State, exec (.jmp 0x80) s = .next t → t.pc = (s.pc + 1) - 127) ∧
  (∀ s t : State, exec (.jmp 0xFF) s = .next t → t.pc = s.pc + 1) ∧
  (∀ s : State, s.Ready → s.mem.byteAt s.pc.toNat = 0xEB → s.mem.byteAt (s.pc.toNat + 1) = 0xFE →
    s.pc + 1 < 0x10000 → step s = .next { s with count := s.count + 1 }) ∧
  (∀ s : State, s.Ready → s.pc = 0xFFFF → s.mem.byteAt 0xFFFF = 0xEB →
    ∃ t, step s = .next t ∧ t.status = .faulted (.memoryBounds 0x10000 0xFEFF))

/-- CALL pushes the program offset of the next instruction and goes to its target (R84, decisions
D2, D4, D16, D19; log 2). The word is stored low byte first at STACK_TOP less the advanced SP. -/
def Obligations.CallPushesTheReturnOffset : Prop :=
  ∀ (rel8 : Byte) (x8 : Option Byte) (s : State), 2 ≤ (s.regs.sp + 2).toNat →
    ∃ t, exec (.call rel8 x8) s = .next t ∧
      t.pc = (s.pc + 1) + rel8.toInt + 2 ∧ t.count = s.count + 1 ∧ t.status = s.status ∧
      t.regs = { s.regs with sp := s.regs.sp + 2 } ∧
      t.halted = s.halted ∧ t.rc = s.rc ∧ t.out = s.out ∧
      t.mem.byteAt (0x10000 - (s.regs.sp + 2).toNat) =
        lowByte (BitVec.ofInt 16 (s.pc + 3 - 0x100)) ∧
      t.mem.byteAt (0x10000 - (s.regs.sp + 2).toNat + 1) =
        highByte (BitVec.ofInt 16 (s.pc + 3 - 0x100)) ∧
      ∀ a : Nat, a ≠ 0x10000 - (s.regs.sp + 2).toNat → a ≠ 0x10000 - (s.regs.sp + 2).toNat + 1 →
        t.mem.byteAt a = s.mem.byteAt a

/-- A CALL whose advanced SP is 0 (or 1, log 15) pushes outside memory and raises MemoryBounds
(R44, R84, decisions D3, D4). -/
def Obligations.CallFaultsWhenSpWraps : Prop :=
  ∀ (rel8 : Byte) (x8 : Option Byte) (s : State), (s.regs.sp + 2).toNat < 2 →
    ∃ t, exec (.call rel8 x8) s = .next t ∧
      t.status = .faulted (.memoryBounds 0x10000 (s.pc - 0x100)) ∧ t.out = s.out ∧
      t.count = s.count ∧ t.pc = s.pc

/-- CALL's third byte has no effect: whatever it holds, the step gives the same `pc`, registers,
status, count and stored word (R67, R85, decision D2). -/
def Obligations.CallIgnoresItsThirdByte : Prop :=
  (∀ (rel8 : Byte) (x8 y8 : Option Byte) (s : State),
    exec (.call rel8 x8) s = exec (.call rel8 y8) s) ∧
  ∀ (s : State) (v : Byte), s.Ready → s.mem.byteAt s.pc.toNat = 0xE8 → s.pc + 2 < 0x10000 →
    ∃ t u, step s = .next t ∧
      step { s with mem := s.mem.setByte (s.pc.toNat + 2) v } = .next u ∧
      u.pc = t.pc ∧ u.regs = t.regs ∧ u.status = t.status ∧ u.count = t.count ∧
      ∀ a : Nat, a ≠ s.pc.toNat + 2 → u.mem.byteAt a = t.mem.byteAt a

/-- R86: RET. The address of the popped word rests on the spec's decision D4, STACK_TOP = 0x10000
(log 2). -/
def Obligations.RetGoesToThePoppedOffset : Prop :=
  (∀ rest : List Byte, decode (0xC3 :: rest) = .instr .ret rest) ∧
  (∀ s : State, 2 ≤ s.regs.sp.toNat → exec .ret s = .next { s with
    regs := { s.regs with sp := s.regs.sp - 2 },
    pc := 0x100 + ((joinBytes (s.mem.byteAt (0x10000 - s.regs.sp.toNat + 1))
      (s.mem.byteAt (0x10000 - s.regs.sp.toNat))).toNat : Int),
    count := s.count + 1 }) ∧
  (∀ s t : State, 2 ≤ s.regs.sp.toNat → exec .ret s = .next t →
    0x0100 ≤ t.pc ∧ t.pc ≤ 0x100FF) ∧
  (∀ s : State, s.regs.sp = 0 → ∃ t, exec .ret s = .next t ∧
    t.status = .faulted (.memoryBounds 0x10000 (s.pc - 0x100)))

/-- The CALL and RET round trip (R88, derived in the spec): after a CALL at 0x00FD or above, a RET
at any later state with the CALL's SP and its two stack bytes resumes after the CALL with SP as it
was before it. -/
def Obligations.RetAfterCallResumesAfterTheCall : Prop :=
  ∀ (rel8 : Byte) (x8 : Option Byte) (s t u : State), 0xFD ≤ s.pc → s.pc ≤ 0xFFFF →
    2 ≤ (s.regs.sp + 2).toNat → exec (.call rel8 x8) s = .next t →
    u.regs.sp = t.regs.sp →
    u.mem.byteAt (0x10000 - t.regs.sp.toNat) = t.mem.byteAt (0x10000 - t.regs.sp.toNat) →
    u.mem.byteAt (0x10000 - t.regs.sp.toNat + 1) = t.mem.byteAt (0x10000 - t.regs.sp.toNat + 1) →
    ∃ v, exec .ret u = .next v ∧ v.pc = s.pc + 3 ∧ v.regs.sp = s.regs.sp ∧ v.status = u.status

/-- Pushes followed by as many pops return the words in reverse order, restore the registers, and
leave every byte outside the words' own unchanged (R46, derived in the spec from R44 and R45;
decision D4, log 2). -/
def Obligations.PushesThenPopsReturnInReverse : Prop :=
  ∀ (vs : List Word) (s : State), s.regs.sp.toNat + 2 * vs.length < 0x10000 →
    ∃ t u, s.pushAll vs = .ok t ∧ t.popMany vs.length = .ok (vs.reverse, u) ∧
      t.regs.sp.toNat = s.regs.sp.toNat + 2 * vs.length ∧ u.regs = s.regs ∧ u.mem = t.mem ∧
      ∀ a : Nat, a < 0x10000 - (s.regs.sp.toNat + 2 * vs.length) ∨ 0x10000 - s.regs.sp.toNat ≤ a →
        t.mem.byteAt a = s.mem.byteAt a

/-- A JMP or CALL assembled for an address and a target goes from that address to that target (R72,
derived in the spec from R83 and R84). -/
def Obligations.AssembledTransfersReachTheirTargets : Prop :=
  ∀ (a target : Int) (i : Instr) (s t : State),
    assembleJmp a target = some i ∨ assembleCall a target = some i →
    s.pc = a → s.status = .running → exec i s = .next t → t.status = .running → t.pc = target

/-- The next fetch sees the bytes a CALL has just stored (R53, R159, decision D18). -/
def Obligations.FetchSeesTheStoredBytes : Prop :=
  ∀ (rel8 : Byte) (x8 : Option Byte) (s t : State), 2 ≤ (s.regs.sp + 2).toNat →
    exec (.call rel8 x8) s = .next t → t.pc = s.advanceSp.stackAddress →
    ∃ tail, t.window = lowByte (BitVec.ofInt 16 (s.pc + 3 - 0x100)) ::
      highByte (BitVec.ofInt 16 (s.pc + 3 - 0x100)) :: tail

/-! ### Registers and memory -/

/-- R23: the 8-bit and 16-bit views of a pair alias. -/
def Obligations.RegisterViewsAlias : Prop :=
  ∀ (r : RegFile) (x : Reg16) (h l : Reg8),
    (x, h, l) ∈ [(Reg16.ax, Reg8.ah, Reg8.al), (Reg16.bx, Reg8.bh, Reg8.bl),
      (Reg16.cx, Reg8.ch, Reg8.cl), (Reg16.dx, Reg8.dh, Reg8.dl)] →
    r.read16 x = joinBytes (r.read8 h) (r.read8 l) ∧
    (∀ v, (r.write8 l v).read16 x = joinBytes (highByte (r.read16 x)) v ∧
      (r.write8 l v).read8 h = r.read8 h) ∧
    (∀ v, (r.write8 h v).read16 x = joinBytes v (lowByte (r.read16 x)) ∧
      (r.write8 h v).read8 l = r.read8 l) ∧
    (∀ w, (r.write16 x w).read8 l = lowByte w ∧ (r.write16 x w).read8 h = highByte w)

/-- The registers that no rule reads or writes cannot change a run of any length, and no run changes
them (R24, R25, R28, derived in the spec; decisions D7, D24, D30). -/
def Obligations.UnreadRegistersCannotChangeARun : Prop :=
  ∀ (k : Nat) (s : State) (q : RegFile),
    Host.Core.run Sys2Proof.core k (s.withInert q) =
      onNext (fun t => t.withInert q) (Host.Core.run Sys2Proof.core k s)

/-- R39, R40: bytes and little-endian words read as they were written, a write changes no other
byte, and an access with a byte outside memory is turned away. That last clause is R41, the spec's
decision D3 (log 17). -/
def Obligations.MemoryWordsAreLittleEndian : Prop :=
  (∀ (m : Memory) (a : Int), 0 ≤ a → a < 0x10000 → readByte m a = .ok (m.byteAt a.toNat)) ∧
  (∀ (m : Memory) (a : Int), 0 ≤ a → a + 1 < 0x10000 →
    readWord m a = .ok (joinBytes (m.byteAt (a.toNat + 1)) (m.byteAt a.toNat))) ∧
  (∀ (m : Memory) (a : Int) (v : Byte), 0 ≤ a → a < 0x10000 →
    ∃ m', writeByte m a v = .ok m' ∧ readByte m' a = .ok v ∧
      ∀ c : Nat, (c : Int) ≠ a → m'.byteAt c = m.byteAt c) ∧
  (∀ (m : Memory) (a : Int) (v : Word), 0 ≤ a → a + 1 < 0x10000 →
    ∃ m', writeWord m a v = .ok m' ∧ readWord m' a = .ok v ∧
      readByte m' a = .ok (lowByte v) ∧ readByte m' (a + 1) = .ok (highByte v) ∧
      ∀ c : Nat, (c : Int) ≠ a → (c : Int) ≠ a + 1 → m'.byteAt c = m.byteAt c) ∧
  (∀ (m : Memory) (a : Int) (v : Byte), a < 0 ∨ 0x10000 ≤ a →
    (∃ x, readByte m a = .outOfRange x) ∧ ∃ x, writeByte m a v = .outOfRange x) ∧
  (∀ (m : Memory) (a : Int) (v : Word), a < 0 ∨ 0x10000 ≤ a + 1 →
    (∃ x, readWord m a = .outOfRange x) ∧ ∃ x, writeWord m a v = .outOfRange x)

/-- An access with a byte outside memory answers its first out-of-range address (R41, R123, decision
D3). -/
def Obligations.OutOfRangeAccessesNameTheAddress : Prop :=
  (∀ (m : Memory) (a : Int) (b : Byte) (v : Word), a < 0 ∨ 0x10000 ≤ a →
    readByte m a = .outOfRange a ∧ readWord m a = .outOfRange a ∧
    writeByte m a b = .outOfRange a ∧ writeWord m a v = .outOfRange a) ∧
  (∀ (m : Memory) (v : Word), readWord m 0xFFFF = .outOfRange 0x10000 ∧
    writeWord m 0xFFFF v = .outOfRange 0x10000)

/-- Two memories in canonical form that read alike are equal (the model's representation, log 10). -/
def Obligations.CanonicalMemoriesThatReadAlikeAreEqual : Prop :=
  ∀ m n : Memory, m.wf = true → n.wf = true → (∀ a, m.byteAt a = n.byteAt a) → m = n

/-! ### INT -/

/-- An INT with a service completes: its own effect, `pc` after it, the status untouched (R97, R100,
R116; decisions D14, D35, D38). -/
def Obligations.ServedInterruptsComplete : Prop :=
  ∀ (imm8 : Byte) (s : State),
    imm8 = 0x20 ∨ (imm8 = 0x21 ∧ s.regs.read8 .ah ∈ [0, 1, 2, 5, 6, 7, 8, 9, 76]) →
    ∃ t, exec (.int imm8) s = .next t ∧ t.pc = s.pc + 2 ∧ t.count = s.count + 1 ∧
      t.status = s.status ∧ t.regs.read16 .sp = s.regs.read16 .sp

/-- An INT whose number is neither 0x20 nor 0x21 raises InvalidInterrupt for every AH, and changes
no register, memory or console byte (R102, decision D14). -/
def Obligations.UnservedVectorsRaise : Prop :=
  ∀ (imm8 : Byte) (s : State), imm8 ≠ 0x20 → imm8 ≠ 0x21 →
    ∃ t, exec (.int imm8) s = .next t ∧
      t.status = .faulted (.invalidInterrupt ((imm8.toNat : Int) - 0x20) (s.regs.read8 .ah) imm8) ∧
      t.regs = s.regs ∧ t.mem = s.mem ∧ t.out = s.out

/-- R105: INT 0x21 with a selector that has no service raises InvalidInterrupt(1, sel, 0x21), and no
state but the status changes. -/
def Obligations.UnservedSelectorsRaise : Prop :=
  ∀ s : State, s.regs.read8 .ah ∉ [0, 1, 2, 5, 6, 7, 8, 9, 76] →
    exec (.int 0x21) s =
      .next { s with status := .faulted (.invalidInterrupt 1 (s.regs.read8 .ah) 0x21) }

/-- The terminating services set the halt flag and the return code, the INT completes, and the next
step ends the run with that code (R103, R104, R113, R116; decisions D15, D35). -/
def Obligations.TerminatingServicesHaltTheRun : Prop :=
  (∀ s : State, exec (.int 0x20) s =
    .next { s with halted := true, rc := 0, pc := s.pc + 2, count := s.count + 1 }) ∧
  (∀ s : State, s.regs.read8 .ah = 0 → exec (.int 0x21) s =
    .next { s with halted := true, rc := 0, pc := s.pc + 2, count := s.count + 1 }) ∧
  (∀ s : State, s.regs.read8 .ah = 76 → exec (.int 0x21) s =
    .next { s with halted := true, rc := s.regs.read8 .al, pc := s.pc + 2, count := s.count + 1 }) ∧
  (∀ s : State, s.status = .running → s.halted = true →
    step s = .next { s with status := .halted s.rc })

/-- R106, R110, R111: selectors 1, 7 and 8 read the next byte of standard input into AL, echo nothing
and change nothing else. The byte is the host's next one where it has supplied one, and the same for
all three selectors. That the host's stream is the field `input`, whose first byte is taken off, and
that `consoleReads` counts the calls, is the model's choice (log 5). -/
def Obligations.ReadServicesFillAl : Prop :=
  ∀ s : State, ∃ b : Byte, (∀ c cs, s.input = c :: cs → b = c) ∧
    ∀ r : RegFile, r.read8 .ah ∈ [1, 7, 8] →
      exec (.int 0x21) { s with regs := r } = .next { s with
        regs := { r with ax := joinBytes (r.read8 .ah) b },
        input := s.input.tail, consoleReads := s.consoleReads + 1,
        pc := s.pc + 2, count := s.count + 1 }

/-- R108: selector 5 writes DL to standard output and changes no register. -/
def Obligations.WriteServiceAppendsDl : Prop :=
  ∀ s : State, s.regs.read8 .ah = 5 → exec (.int 0x21) s =
    .next { s with out := s.out ++ [s.regs.read8 .dl], pc := s.pc + 2, count := s.count + 1 }

/-- Selectors 2 and 6 write DL and leave AL an arbitrary byte (R107, R109, R133, decision D11; log
6). Nothing is said of that byte. -/
def Obligations.WriteAndDrawServicesLeaveAlOpen : Prop :=
  ∀ s : State, s.regs.read8 .ah = 2 ∨ s.regs.read8 .ah = 6 →
    ∃ b : Byte, exec (.int 0x21) s = .next { s with
      regs := { s.regs with ax := joinBytes (s.regs.read8 .ah) b },
      out := s.out ++ [s.regs.read8 .dl], draws := s.draws + 1,
      pc := s.pc + 2, count := s.count + 1 }

/-- Selector 9 prints the bytes from the absolute address DX up to the first `$`, or to the end of
memory where there is none, and changes nothing else (R112, decisions D13, D37). -/
def Obligations.PrintServiceStopsAtTheDollar : Prop :=
  ∀ s : State, s.regs.read8 .ah = 9 →
    ∃ bs : List Byte,
      exec (.int 0x21) s =
        .next { s with out := s.out ++ bs, pc := s.pc + 2, count := s.count + 1 } ∧
      (s.regs.read16 .dx).toNat + bs.length ≤ 0x10000 ∧
      (∀ k, k < bs.length → bs[k]? = some (s.mem.byteAt ((s.regs.read16 .dx).toNat + k)) ∧
        s.mem.byteAt ((s.regs.read16 .dx).toNat + k) ≠ 0x24) ∧
      ((s.regs.read16 .dx).toNat + bs.length < 0x10000 →
        s.mem.byteAt ((s.regs.read16 .dx).toNat + bs.length) = 0x24)

/-! ### Rules of the whole machine -/

/-- The output only grows, and only an INT writes to it (R35, R132; from R47 and R115). -/
def Obligations.OutputOnlyGrows : Prop :=
  ∀ s t : State, step s = .next t →
    (∃ bs, t.out = s.out ++ bs) ∧ (s.mem.byteAt s.pc.toNat ≠ 0xCD → t.out = s.out)

/-- The halt flag is set only by a terminating service (R30, decision D15). -/
def Obligations.OnlyTerminatingServicesSetTheHaltFlag : Prop :=
  ∀ s t : State, step s = .next t → s.halted = false → t.halted = true →
    s.mem.byteAt s.pc.toNat = 0xCD ∧
    (s.mem.byteAt (s.pc.toNat + 1) = 0x20 ∨
      (s.mem.byteAt (s.pc.toNat + 1) = 0x21 ∧ (s.regs.read8 .ah = 0 ∨ s.regs.read8 .ah = 76)))

/-- A step either completes an instruction and counts it, or ends the run with `pc` and `count` as
they were (R32, R151, R155; decision D33). -/
def Obligations.CompletedInstructionsAreCounted : Prop :=
  ∀ s t : State, step s = .next t →
    (t.status = .running ∧ t.count = s.count + 1) ∨
    (t.status ≠ .running ∧ t.count = s.count ∧ t.pc = s.pc)

/-- A step of a run that stays in closed code and has room on the stack raises no fault, and the run
stays in closed code (R62, R68, R102, R105, R154, R126; decisions D1 to D4, D14, D29; log 1, log 2,
log 17): none of the faults of R126 can arise, whichever instruction the step executes. -/
def Obligations.StepsInClosedCodeStayFaultFree : Prop :=
  ∀ (code : Nat → Prop) (top : Nat) (s t : State), s.InClosedCode code top → s.StackRoom top →
    step s = .next t → t.FaultFree ∧ t.InClosedCode code top

/-- With a finite bound every run ends within one loop check more than the bound (R157, derived in
the spec; log 3, log 14). -/
def Obligations.BoundedRunsEnd : Prop :=
  ∀ (s : State) (n : Nat), s.status = .running → s.maxInstructions = some n →
    ∃ k t, k ≤ n + 1 ∧ Host.Core.run Sys2Proof.core k s = .next t ∧ t.status ≠ .running

/-! ### Invariants -/

/-- Every step keeps memory in its canonical form (R37, R41; log 10). -/
def Obligations.MemoryStaysCanonical : Prop :=
  ∀ s t : State, s.mem.wf = true → step s = .next t → t.mem.wf = true

/-- Every step keeps SP even: it "only ever changes by ±2" (R26, decision D29). -/
def Obligations.StackPointerStaysEven : Prop :=
  ∀ s t : State, s.SpEven → step s = .next t → t.SpEven

/-- Every step keeps `pc` within the reach of a transfer from inside memory (R81, R83, R84, R86;
decision D8). -/
def Obligations.PcStaysInReach : Prop :=
  ∀ s t : State, s.PcInReach → step s = .next t → t.PcInReach

/-- At most `P_MAX_INSTRUCTIONS` instructions complete, and no step changes the bound (R152,
decision D9; log 3). -/
def Obligations.CountStaysInBound : Prop :=
  ∀ s t : State, s.CountInBound → step s = .next t →
    t.CountInBound ∧ t.maxInstructions = s.maxInstructions

/-- The status Halted(rc) is reached only with the halt flag set and the return code `rc`, and
nothing clears the flag (R30, R31; decisions D10, D15). -/
def Obligations.HaltStatusAgreesWithTheFlag : Prop :=
  ∀ s t : State, s.HaltAgrees → step s = .next t →
    t.HaltAgrees ∧ (s.halted = true → t.halted = true ∧ t.rc = s.rc)

/-- The reset state meets every invariant above, and so does the state after a load. -/
def Obligations.StartStatesMeetTheInvariants : Prop :=
  ∀ (bound : Option Nat) (input image : List Byte), image.length ≤ 0xFF00 →
    (startState bound input image).mem.wf = true ∧ (startState bound input image).SpEven ∧
    (startState bound input image).PcInReach ∧ (startState bound input image).CountInBound ∧
    (startState bound input image).HaltAgrees ∧
    State.reset = startState none [] []

/-! ### Reset, load and the host -/

/-- R142: execution starts at 0x0100 with status Running, whatever the image holds. -/
def Obligations.ExecutionStartsAtTheProgramBase : Prop :=
  State.reset.pc = 0x0100 ∧ State.reset.status = .running ∧
  ∀ (bound : Option Nat) (input image : List Byte),
    (startState bound input image).pc = 0x0100 ∧
    (startState bound input image).status = .running

/-- The reset state (R36). SP's zero is the source's; the other registers, rc, memory and count are
the spec's decisions D5, D6, D33 (log 9, log 10). -/
def Obligations.ResetStateIsZero : Prop :=
  (∀ x : Reg16, State.reset.regs.read16 x = 0) ∧ (∀ a, State.reset.mem.byteAt a = 0) ∧
  State.reset.halted = false ∧ State.reset.rc = 0 ∧ State.reset.count = 0 ∧ State.reset.out = []

/-- A load places the image from 0x0100 upward, leaves every other byte 0x00, and rejects an image
longer than 0xFF00 bytes or one that could not be read (R145, R146, R147; decisions D5, D26). -/
def Obligations.LoadPlacesTheImage : Prop :=
  ∀ (bound : Option Nat) (input : List Byte),
    load bound input none = .loadError ∧
    (∀ image : List Byte, 0xFF00 < image.length → load bound input (some image) = .capacityError) ∧
    (∀ image : List Byte, image.length ≤ 0xFF00 →
      ∃ s, load bound input (some image) = .loaded s ∧
        (∀ k, k < image.length → image[k]? = some (s.mem.byteAt (0x100 + k))) ∧
        (∀ a : Nat, a < 0x100 ∨ 0x100 + image.length ≤ a → s.mem.byteAt a = 0) ∧
        s.maxInstructions = bound ∧ s.input = input ∧ s.regs = RegFile.reset)

/-- Of a faulted run only the fault record and the output are observed (R121, R156, decision D22;
log 7). -/
def Obligations.FaultedRunsShowOnlyRecordAndOutput : Prop :=
  ∀ (s t : State) (k : FaultKind), s.status = .faulted k → t.status = .faulted k → s.out = t.out →
    s.observe = t.observe ∧ s.observe = some (.faulted k s.out)

/-! ### Safe runs -/

/-- A run that starts in closed code, free of a fault, and has room on the stack wherever it comes
to, is safe: no state it comes to is faulted (R126; decisions D1 to D4, D14, D29;
log 1, log 2, log 17). -/
def Obligations.RunsOfClosedCodeAreSafe : Prop :=
  ∀ (code : Nat → Prop) (top : Nat) (s : State), s.FaultFree → s.InClosedCode code top →
    (∀ n t, Host.Core.run Sys2Proof.core n s = .next t → t.StackRoom top) → SafeRun s
end

