-- ==== Sys2Proof/Laws/Decode.lean ====
section
/-! SUPPORT. All the opcode table and the operand decoders can answer (R59, R61, R70). -/

namespace Sys2Proof

/-- The byte each entry of the opcode table stands at (R59). -/
def opcodeByte : Opcode → Byte
  | .nop => 0x5A
  | .movAh => 0xB4
  | .movDx => 0xBA
  | .ret => 0xC3
  | .int => 0xCD
  | .call => 0xE8
  | .jmp => 0xEB

theorem opcodeTable_opcodeByte (o : Opcode) : opcodeTable (opcodeByte o) = some o := by
  cases o <;> rfl

/-- The opcode table has one byte for each entry (R59). -/
theorem opcodeTable_eq_some {op : Byte} {o : Opcode} :
    opcodeTable op = some o ↔ op = opcodeByte o := by
  constructor
  · intro h
    unfold opcodeTable opcodeTableWith at h
    repeat' split at h
    all_goals first | cases h; assumption | cases h
  · rintro rfl
    exact opcodeTable_opcodeByte o

theorem decode_nil : decode [] = .noByte := rfl

/-- What the decoder answers on an opcode byte and the bytes after it (R61). -/
theorem decode_cons (op : Byte) (rest : List Byte) :
    decode (op :: rest) =
      match opcodeTable op with
      | none => .invalidOpcode op
      | some .nop => .instr .nop rest
      | some .movAh => decodeByteOperand .movAh rest
      | some .movDx => decodeWordOperand .movDx rest
      | some .ret => .instr .ret rest
      | some .int => decodeByteOperand .int rest
      | some .call => decodeCallOperands rest
      | some .jmp => decodeByteOperand .jmp rest := rfl

/-- All a byte operand's decoder can answer (R57). -/
theorem decodeByteOperand_cases (make : Byte → Instr) (bytes : List Byte) :
    (bytes = [] ∧ decodeByteOperand make bytes = .missingOperand 1) ∨
      (∃ b rest, bytes = b :: rest ∧ decodeByteOperand make bytes = .instr (make b) rest) := by
  cases bytes with
  | nil => exact .inl ⟨rfl, rfl⟩
  | cons b rest => exact .inr ⟨b, rest, rfl, rfl⟩

/-- All a word operand's decoder can answer (R57, R66). -/
theorem decodeWordOperand_cases (make : Word → Instr) (bytes : List Byte) :
    (bytes = [] ∧ decodeWordOperand make bytes = .missingOperand 1) ∨
      (∃ b, bytes = [b] ∧ decodeWordOperand make bytes = .missingOperand 2) ∨
      (∃ lo hi rest, bytes = lo :: hi :: rest ∧
        decodeWordOperand make bytes = .instr (make (joinBytes hi lo)) rest) := by
  match bytes with
  | [] => exact .inl ⟨rfl, rfl⟩
  | [b] => exact .inr (.inl ⟨b, rfl, rfl⟩)
  | lo :: hi :: rest => exact .inr (.inr ⟨lo, hi, rest, rfl, rfl⟩)

/-- All the decoder of CALL's operands can answer (R57, R67, R68). -/
theorem decodeCallOperands_cases (bytes : List Byte) :
    (bytes = [] ∧ decodeCallOperands bytes = .missingOperand 1) ∨
      (∃ b, bytes = [b] ∧ decodeCallOperands bytes = .instr (.call b none) []) ∨
      (∃ b x rest, bytes = b :: x :: rest ∧
        decodeCallOperands bytes = .instr (.call b (some x)) rest) := by
  match bytes with
  | [] => exact .inl ⟨rfl, rfl⟩
  | [b] => exact .inr (.inl ⟨b, rfl, rfl⟩)
  | b :: x :: rest => exact .inr (.inr ⟨b, x, rest, rfl, rfl⟩)

end Sys2Proof
end

