-- ==== Sys2Proof/Laws/State.lean ====
section
/-! SUPPORT. One lemma per field of State per update, so that no proof unfolds a record update. -/

namespace Sys2Proof.Machine

variable (s : State)

@[simp] theorem State.setReg16_regs (x : Reg16) (v : Word) : (s.setReg16 x v).regs = s.regs.write16 x v :=
    rfl
@[simp] theorem State.setReg16_pc (x : Reg16) (v : Word) : (s.setReg16 x v).pc = s.pc := rfl
@[simp] theorem State.setReg16_mem (x : Reg16) (v : Word) : (s.setReg16 x v).mem = s.mem := rfl
@[simp] theorem State.setReg16_halted (x : Reg16) (v : Word) : (s.setReg16 x v).halted = s.halted :=
    rfl
@[simp] theorem State.setReg16_rc (x : Reg16) (v : Word) : (s.setReg16 x v).rc = s.rc := rfl
@[simp] theorem State.setReg16_status (x : Reg16) (v : Word) : (s.setReg16 x v).status = s.status :=
    rfl
@[simp] theorem State.setReg16_count (x : Reg16) (v : Word) : (s.setReg16 x v).count = s.count :=
    rfl
@[simp] theorem State.setReg16_out (x : Reg16) (v : Word) : (s.setReg16 x v).out = s.out := rfl
@[simp] theorem State.setReg16_input (x : Reg16) (v : Word) : (s.setReg16 x v).input = s.input :=
    rfl
@[simp] theorem State.setReg16_consoleReads (x : Reg16) (v : Word) : (s.setReg16 x v).consoleReads = s.consoleReads :=
    rfl
@[simp] theorem State.setReg16_draws (x : Reg16) (v : Word) : (s.setReg16 x v).draws = s.draws :=
    rfl
@[simp] theorem State.setReg16_maxInstructions (x : Reg16) (v : Word) : (s.setReg16 x v).maxInstructions = s.maxInstructions :=
    rfl

@[simp] theorem State.setReg8_regs (x : Reg8) (v : Byte) : (s.setReg8 x v).regs = s.regs.write8 x v :=
    rfl
@[simp] theorem State.setReg8_pc (x : Reg8) (v : Byte) : (s.setReg8 x v).pc = s.pc := rfl
@[simp] theorem State.setReg8_mem (x : Reg8) (v : Byte) : (s.setReg8 x v).mem = s.mem := rfl
@[simp] theorem State.setReg8_halted (x : Reg8) (v : Byte) : (s.setReg8 x v).halted = s.halted :=
    rfl
@[simp] theorem State.setReg8_rc (x : Reg8) (v : Byte) : (s.setReg8 x v).rc = s.rc := rfl
@[simp] theorem State.setReg8_status (x : Reg8) (v : Byte) : (s.setReg8 x v).status = s.status :=
    rfl
@[simp] theorem State.setReg8_count (x : Reg8) (v : Byte) : (s.setReg8 x v).count = s.count := rfl
@[simp] theorem State.setReg8_out (x : Reg8) (v : Byte) : (s.setReg8 x v).out = s.out := rfl
@[simp] theorem State.setReg8_input (x : Reg8) (v : Byte) : (s.setReg8 x v).input = s.input := rfl
@[simp] theorem State.setReg8_consoleReads (x : Reg8) (v : Byte) : (s.setReg8 x v).consoleReads = s.consoleReads :=
    rfl
@[simp] theorem State.setReg8_draws (x : Reg8) (v : Byte) : (s.setReg8 x v).draws = s.draws := rfl
@[simp] theorem State.setReg8_maxInstructions (x : Reg8) (v : Byte) : (s.setReg8 x v).maxInstructions = s.maxInstructions :=
    rfl

@[simp] theorem State.advanceSp_regs : (s.advanceSp).regs = { s.regs with sp := s.regs.sp + 2 } :=
    rfl
@[simp] theorem State.advanceSp_pc : (s.advanceSp).pc = s.pc := rfl
@[simp] theorem State.advanceSp_mem : (s.advanceSp).mem = s.mem := rfl
@[simp] theorem State.advanceSp_halted : (s.advanceSp).halted = s.halted := rfl
@[simp] theorem State.advanceSp_rc : (s.advanceSp).rc = s.rc := rfl
@[simp] theorem State.advanceSp_status : (s.advanceSp).status = s.status := rfl
@[simp] theorem State.advanceSp_count : (s.advanceSp).count = s.count := rfl
@[simp] theorem State.advanceSp_out : (s.advanceSp).out = s.out := rfl
@[simp] theorem State.advanceSp_input : (s.advanceSp).input = s.input := rfl
@[simp] theorem State.advanceSp_consoleReads : (s.advanceSp).consoleReads = s.consoleReads := rfl
@[simp] theorem State.advanceSp_draws : (s.advanceSp).draws = s.draws := rfl
@[simp] theorem State.advanceSp_maxInstructions : (s.advanceSp).maxInstructions = s.maxInstructions :=
    rfl

@[simp] theorem State.retreatSp_regs : (s.retreatSp).regs = { s.regs with sp := s.regs.sp - 2 } :=
    rfl
@[simp] theorem State.retreatSp_pc : (s.retreatSp).pc = s.pc := rfl
@[simp] theorem State.retreatSp_mem : (s.retreatSp).mem = s.mem := rfl
@[simp] theorem State.retreatSp_halted : (s.retreatSp).halted = s.halted := rfl
@[simp] theorem State.retreatSp_rc : (s.retreatSp).rc = s.rc := rfl
@[simp] theorem State.retreatSp_status : (s.retreatSp).status = s.status := rfl
@[simp] theorem State.retreatSp_count : (s.retreatSp).count = s.count := rfl
@[simp] theorem State.retreatSp_out : (s.retreatSp).out = s.out := rfl
@[simp] theorem State.retreatSp_input : (s.retreatSp).input = s.input := rfl
@[simp] theorem State.retreatSp_consoleReads : (s.retreatSp).consoleReads = s.consoleReads := rfl
@[simp] theorem State.retreatSp_draws : (s.retreatSp).draws = s.draws := rfl
@[simp] theorem State.retreatSp_maxInstructions : (s.retreatSp).maxInstructions = s.maxInstructions :=
    rfl

@[simp] theorem State.halt_regs (v : Byte) : (s.halt v).regs = s.regs := rfl
@[simp] theorem State.halt_pc (v : Byte) : (s.halt v).pc = s.pc := rfl
@[simp] theorem State.halt_mem (v : Byte) : (s.halt v).mem = s.mem := rfl
@[simp] theorem State.halt_halted (v : Byte) : (s.halt v).halted = true := rfl
@[simp] theorem State.halt_rc (v : Byte) : (s.halt v).rc = v := rfl
@[simp] theorem State.halt_status (v : Byte) : (s.halt v).status = s.status := rfl
@[simp] theorem State.halt_count (v : Byte) : (s.halt v).count = s.count := rfl
@[simp] theorem State.halt_out (v : Byte) : (s.halt v).out = s.out := rfl
@[simp] theorem State.halt_input (v : Byte) : (s.halt v).input = s.input := rfl
@[simp] theorem State.halt_consoleReads (v : Byte) : (s.halt v).consoleReads = s.consoleReads := rfl
@[simp] theorem State.halt_draws (v : Byte) : (s.halt v).draws = s.draws := rfl
@[simp] theorem State.halt_maxInstructions (v : Byte) : (s.halt v).maxInstructions = s.maxInstructions :=
    rfl

@[simp] theorem State.consoleOut_regs (bs : List Byte) : (s.consoleOut bs).regs = s.regs := rfl
@[simp] theorem State.consoleOut_pc (bs : List Byte) : (s.consoleOut bs).pc = s.pc := rfl
@[simp] theorem State.consoleOut_mem (bs : List Byte) : (s.consoleOut bs).mem = s.mem := rfl
@[simp] theorem State.consoleOut_halted (bs : List Byte) : (s.consoleOut bs).halted = s.halted :=
    rfl
@[simp] theorem State.consoleOut_rc (bs : List Byte) : (s.consoleOut bs).rc = s.rc := rfl
@[simp] theorem State.consoleOut_status (bs : List Byte) : (s.consoleOut bs).status = s.status :=
    rfl
@[simp] theorem State.consoleOut_count (bs : List Byte) : (s.consoleOut bs).count = s.count := rfl
@[simp] theorem State.consoleOut_out (bs : List Byte) : (s.consoleOut bs).out = s.out ++ bs := rfl
@[simp] theorem State.consoleOut_input (bs : List Byte) : (s.consoleOut bs).input = s.input := rfl
@[simp] theorem State.consoleOut_consoleReads (bs : List Byte) : (s.consoleOut bs).consoleReads = s.consoleReads :=
    rfl
@[simp] theorem State.consoleOut_draws (bs : List Byte) : (s.consoleOut bs).draws = s.draws := rfl
@[simp] theorem State.consoleOut_maxInstructions (bs : List Byte) : (s.consoleOut bs).maxInstructions = s.maxInstructions :=
    rfl

@[simp] theorem State.afterConsoleIn_regs : (s.afterConsoleIn).regs = s.regs := rfl
@[simp] theorem State.afterConsoleIn_pc : (s.afterConsoleIn).pc = s.pc := rfl
@[simp] theorem State.afterConsoleIn_mem : (s.afterConsoleIn).mem = s.mem := rfl
@[simp] theorem State.afterConsoleIn_halted : (s.afterConsoleIn).halted = s.halted := rfl
@[simp] theorem State.afterConsoleIn_rc : (s.afterConsoleIn).rc = s.rc := rfl
@[simp] theorem State.afterConsoleIn_status : (s.afterConsoleIn).status = s.status := rfl
@[simp] theorem State.afterConsoleIn_count : (s.afterConsoleIn).count = s.count := rfl
@[simp] theorem State.afterConsoleIn_out : (s.afterConsoleIn).out = s.out := rfl
@[simp] theorem State.afterConsoleIn_input : (s.afterConsoleIn).input = s.input.tail := rfl
@[simp] theorem State.afterConsoleIn_consoleReads : (s.afterConsoleIn).consoleReads = s.consoleReads + 1 :=
    rfl
@[simp] theorem State.afterConsoleIn_draws : (s.afterConsoleIn).draws = s.draws := rfl
@[simp] theorem State.afterConsoleIn_maxInstructions : (s.afterConsoleIn).maxInstructions = s.maxInstructions :=
    rfl

@[simp] theorem State.afterDraw_regs : (s.afterDraw).regs = s.regs := rfl
@[simp] theorem State.afterDraw_pc : (s.afterDraw).pc = s.pc := rfl
@[simp] theorem State.afterDraw_mem : (s.afterDraw).mem = s.mem := rfl
@[simp] theorem State.afterDraw_halted : (s.afterDraw).halted = s.halted := rfl
@[simp] theorem State.afterDraw_rc : (s.afterDraw).rc = s.rc := rfl
@[simp] theorem State.afterDraw_status : (s.afterDraw).status = s.status := rfl
@[simp] theorem State.afterDraw_count : (s.afterDraw).count = s.count := rfl
@[simp] theorem State.afterDraw_out : (s.afterDraw).out = s.out := rfl
@[simp] theorem State.afterDraw_input : (s.afterDraw).input = s.input := rfl
@[simp] theorem State.afterDraw_consoleReads : (s.afterDraw).consoleReads = s.consoleReads := rfl
@[simp] theorem State.afterDraw_draws : (s.afterDraw).draws = s.draws + 1 := rfl
@[simp] theorem State.afterDraw_maxInstructions : (s.afterDraw).maxInstructions = s.maxInstructions :=
    rfl

@[simp] theorem State.withInert_regs (q : RegFile) : (s.withInert q).regs = s.regs.withInert q :=
    rfl
@[simp] theorem State.withInert_pc (q : RegFile) : (s.withInert q).pc = s.pc := rfl
@[simp] theorem State.withInert_mem (q : RegFile) : (s.withInert q).mem = s.mem := rfl
@[simp] theorem State.withInert_halted (q : RegFile) : (s.withInert q).halted = s.halted := rfl
@[simp] theorem State.withInert_rc (q : RegFile) : (s.withInert q).rc = s.rc := rfl
@[simp] theorem State.withInert_status (q : RegFile) : (s.withInert q).status = s.status := rfl
@[simp] theorem State.withInert_count (q : RegFile) : (s.withInert q).count = s.count := rfl
@[simp] theorem State.withInert_out (q : RegFile) : (s.withInert q).out = s.out := rfl
@[simp] theorem State.withInert_input (q : RegFile) : (s.withInert q).input = s.input := rfl
@[simp] theorem State.withInert_consoleReads (q : RegFile) : (s.withInert q).consoleReads = s.consoleReads :=
    rfl
@[simp] theorem State.withInert_draws (q : RegFile) : (s.withInert q).draws = s.draws := rfl
@[simp] theorem State.withInert_maxInstructions (q : RegFile) : (s.withInert q).maxInstructions = s.maxInstructions :=
    rfl

end Sys2Proof.Machine
end

