-- ==== Sys2Proof/Laws/Memory.lean ====
section
/-! SUPPORT. Memory: a read after a write, and the canonical form, which every memory operation
keeps (R36, R39 to R41). -/

namespace Sys2Proof.Machine

/-! ### Reading what was written -/

theorem Memory.byteAt_insertCell (m : Memory) (a c : Nat) (v : Byte) :
    (m.insertCell a v).byteAt c = if c = a then v else m.byteAt c := by
  induction m with
  | nil => simp [Memory.insertCell, Memory.byteAt]
  | cons cell m ih =>
    obtain ⟨b, w⟩ := cell
    simp only [Memory.insertCell]
    split
    · simp [Memory.byteAt]
    · split
      · subst b
        simp only [Memory.byteAt]
        split <;> rfl
      · simp only [Memory.byteAt, ih]
        split <;> split <;> first | rfl | omega

theorem Memory.byteAt_eraseCell (m : Memory) (a c : Nat) :
    (m.eraseCell a).byteAt c = if c = a then Config.unlistedByte else m.byteAt c := by
  induction m with
  | nil => simp [Memory.eraseCell, Memory.byteAt]
  | cons cell m ih =>
    obtain ⟨b, w⟩ := cell
    simp only [Memory.eraseCell]
    split
    · subst b
      simp only [Memory.byteAt, ih]
      split <;> rfl
    · simp only [Memory.byteAt, ih]
      split <;> split <;> first | rfl | omega

/-- A read after a write: the byte written there, the old byte elsewhere (R39, R40). -/
theorem Memory.byteAt_setByte (m : Memory) (a c : Nat) (v : Byte) :
    (m.setByte a v).byteAt c = if c = a then v else m.byteAt c := by
  unfold Memory.setByte
  split
  · subst v
    exact Memory.byteAt_eraseCell m a c
  · exact Memory.byteAt_insertCell m a c v

/-! ### The canonical form -/

theorem Memory.wfFrom_cons {lo a : Nat} {v : Byte} {m : Memory} :
    Memory.wfFrom lo ((a, v) :: m) = true ↔
      lo ≤ a ∧ a < Config.memSize ∧ v ≠ Config.unlistedByte ∧ m.wfFrom (a + 1) = true := by
  simp [Memory.wfFrom, and_assoc]

theorem Memory.wfFrom_mono {lo lo' : Nat} (h : lo' ≤ lo) {m : Memory}
    (hm : m.wfFrom lo = true) : m.wfFrom lo' = true := by
  cases m with
  | nil => rfl
  | cons cell m =>
    obtain ⟨b, w⟩ := cell
    rw [Memory.wfFrom_cons] at *
    exact ⟨by omega, hm.2⟩

/-- Below its first address a canonical memory lists nothing. -/
theorem Memory.byteAt_below {lo : Nat} {m : Memory} (hm : m.wfFrom lo = true) {c : Nat}
    (h : c < lo) : m.byteAt c = Config.unlistedByte := by
  induction m generalizing lo with
  | nil => rfl
  | cons cell m ih =>
    obtain ⟨b, w⟩ := cell
    rw [Memory.wfFrom_cons] at hm
    rw [Memory.byteAt, if_neg (by omega)]
    exact ih hm.2.2.2 (by omega)

theorem Memory.wfFrom_insertCell {m : Memory} {lo a : Nat} {v : Byte} (hm : m.wfFrom lo = true)
    (hlo : lo ≤ a) (ha : a < Config.memSize) (hv : v ≠ Config.unlistedByte) :
    (m.insertCell a v).wfFrom lo = true := by
  induction m generalizing lo with
  | nil => exact Memory.wfFrom_cons.2 ⟨hlo, ha, hv, rfl⟩
  | cons cell m ih =>
    obtain ⟨b, w⟩ := cell
    rw [Memory.wfFrom_cons] at hm
    obtain ⟨h1, h2, h3, h4⟩ := hm
    unfold Memory.insertCell
    split
    · exact Memory.wfFrom_cons.2 ⟨hlo, ha, hv, Memory.wfFrom_cons.2 ⟨by omega, h2, h3, h4⟩⟩
    · split
      · subst b
        exact Memory.wfFrom_cons.2 ⟨hlo, ha, hv, h4⟩
      · exact Memory.wfFrom_cons.2 ⟨h1, h2, h3, ih h4 (by omega)⟩

theorem Memory.wfFrom_eraseCell {m : Memory} {lo : Nat} (a : Nat) (hm : m.wfFrom lo = true) :
    (m.eraseCell a).wfFrom lo = true := by
  induction m generalizing lo with
  | nil => rfl
  | cons cell m ih =>
    obtain ⟨b, w⟩ := cell
    rw [Memory.wfFrom_cons] at hm
    obtain ⟨h1, h2, h3, h4⟩ := hm
    unfold Memory.eraseCell
    split
    · exact Memory.wfFrom_mono (by omega) (ih h4)
    · exact Memory.wfFrom_cons.2 ⟨h1, h2, h3, ih h4⟩

/-- Storing a byte inside memory keeps the canonical form. -/
theorem Memory.wf_setByte {m : Memory} {a : Nat} (v : Byte) (hm : m.wf = true)
    (ha : a < Config.memSize) : (m.setByte a v).wf = true := by
  unfold Memory.setByte
  split
  · exact Memory.wfFrom_eraseCell a hm
  · rename_i hv
    exact Memory.wfFrom_insertCell hm (Nat.zero_le a) ha hv

theorem wfFrom_imageCells (bs : List Byte) (a : Nat) (h : a + bs.length ≤ Config.memSize) :
    (imageCells a bs).wfFrom a = true := by
  induction bs generalizing a with
  | nil => rfl
  | cons b bs ih =>
    simp only [List.length_cons] at h
    have hrec := ih (a + 1) (by omega)
    simp only [imageCells]
    split
    · exact Memory.wfFrom_mono (Nat.le_succ a) hrec
    · rename_i hb
      exact Memory.wfFrom_cons.2 ⟨Nat.le_refl a, by omega, hb, hrec⟩

/-- An image placed inside memory is a canonical memory (R146). -/
theorem wf_imageCells (bs : List Byte) (a : Nat) (h : a + bs.length ≤ Config.memSize) :
    (imageCells a bs).wf = true :=
  Memory.wfFrom_mono (Nat.zero_le a) (wfFrom_imageCells bs a h)

/-- What `storeBytes` leaves is canonical. -/
theorem wf_storeBytes {m : Memory} (hm : m.wf = true) (a : Nat) (bs : List Byte) :
    (storeBytes m a bs).wf = true := by
  induction bs generalizing m a with
  | nil => exact hm
  | cons b bs ih =>
    unfold storeBytes
    split
    · rename_i ha
      exact ih (Memory.wf_setByte b hm ha) (a + 1)
    · exact hm

/-- What stored bytes read as: the byte stored there, the old byte elsewhere. -/
theorem byteAt_storeBytes (m : Memory) (a : Nat) (bs : List Byte)
    (h : a + bs.length ≤ Config.memSize) (c : Nat) :
    (storeBytes m a bs).byteAt c =
      if a ≤ c then (bs[c - a]?).getD (m.byteAt c) else m.byteAt c := by
  induction bs generalizing m a with
  | nil => simp [storeBytes]
  | cons b bs ih =>
    simp only [List.length_cons] at h
    have shift : a + 1 ≤ c → (b :: bs)[c - a]? = bs[c - (a + 1)]? := by
      intro hc
      rw [show c - a = (c - (a + 1)) + 1 by omega]
      rfl
    rw [storeBytes, if_pos (by omega), ih _ _ (by omega), Memory.byteAt_setByte]
    by_cases h1 : a + 1 ≤ c
    · have hca : c ≠ a := by omega
      have hac : a ≤ c := by omega
      rw [if_pos h1, if_pos hac, if_neg hca, shift h1]
    · by_cases h2 : c = a
      · subst h2
        simp
      · rw [if_neg h1, if_neg h2, if_neg (by omega)]

/-! ### Checked accesses -/

theorem inMemory_iff (a : Int) : inMemory a = true ↔ 0 ≤ a ∧ a < (Config.memSize : Int) := by
  simp [inMemory]

/-- All a byte read can answer (R39, R41). -/
theorem readByte_cases (m : Memory) (a : Int) :
    (0 ≤ a ∧ a < (Config.memSize : Int) ∧ readByte m a = .ok (m.byteAt a.toNat)) ∨
      ((a < 0 ∨ (Config.memSize : Int) ≤ a) ∧ readByte m a = .outOfRange a) := by
  unfold readByte
  by_cases h : inMemory a = true
  · rw [if_pos h]
    exact .inl ⟨((inMemory_iff a).1 h).1, ((inMemory_iff a).1 h).2, rfl⟩
  · rw [if_neg h]
    refine .inr ⟨?_, rfl⟩
    rw [inMemory_iff] at h
    omega

/-- A word read inside memory (R39). -/
theorem readWord_ok {m : Memory} {a : Int} (h0 : 0 ≤ a) (h1 : a + 1 < (Config.memSize : Int)) :
    readWord m a = .ok (joinBytes (m.byteAt (a + 1).toNat) (m.byteAt a.toNat)) := by
  unfold readWord
  rw [if_pos ((inMemory_iff a).2 ⟨h0, by omega⟩),
    if_pos ((inMemory_iff (a + 1)).2 ⟨by omega, h1⟩)]

/-- A word written inside memory (R40). -/
theorem writeWord_ok {m : Memory} {a : Int} (v : Word) (h0 : 0 ≤ a)
    (h1 : a + 1 < (Config.memSize : Int)) :
    writeWord m a v =
      .ok ((m.setByte a.toNat (lowByte v)).setByte (a + 1).toNat (highByte v)) := by
  unfold writeWord
  rw [if_pos ((inMemory_iff a).2 ⟨h0, by omega⟩),
    if_pos ((inMemory_iff (a + 1)).2 ⟨by omega, h1⟩)]

/-- What a word write that is answered did: both bytes lie inside memory (R40, R41). -/
theorem writeWord_inv {m m' : Memory} {a : Int} {v : Word} (h : writeWord m a v = .ok m') :
    0 ≤ a ∧ a + 1 < (Config.memSize : Int) ∧
      m' = (m.setByte a.toNat (lowByte v)).setByte (a + 1).toNat (highByte v) := by
  unfold writeWord at h
  split at h
  · rename_i ha
    split at h
    · rename_i hb
      rw [inMemory_iff] at ha hb
      cases h
      exact ⟨ha.1, hb.2, rfl⟩
    · cases h
  · cases h

/-- A word write keeps the canonical form. -/
theorem wf_writeWord {m m' : Memory} {a : Int} {v : Word} (hm : m.wf = true)
    (h : writeWord m a v = .ok m') : m'.wf = true := by
  obtain ⟨h0, h1, rfl⟩ := writeWord_inv h
  exact Memory.wf_setByte _ (Memory.wf_setByte _ hm (by omega)) (by omega)

/-- A byte write keeps the canonical form. -/
theorem wf_writeByte {m m' : Memory} {a : Int} {v : Byte} (hm : m.wf = true)
    (h : writeByte m a v = .ok m') : m'.wf = true := by
  unfold writeByte at h
  split at h
  · rename_i ha
    rw [inMemory_iff] at ha
    cases h
    exact Memory.wf_setByte _ hm (by omega)
  · cases h

end Sys2Proof.Machine
end

