-- ==== Sys2Proof/Laws/Registers.lean ====
section
/-! SUPPORT. Bytes of words (R9, R43) and the register views (R23). -/

namespace Sys2Proof

/-- The bits of a joined word: the low-order byte's first. -/
theorem getLsbD_joinBytes (hi lo : Byte) (i : Nat) :
    (joinBytes hi lo).getLsbD i = if i < 8 then lo.getLsbD i else hi.getLsbD (i - 8) :=
  BitVec.getLsbD_append

@[simp] theorem lowByte_joinBytes (hi lo : Byte) : lowByte (joinBytes hi lo) = lo := by
  apply BitVec.eq_of_getLsbD_eq
  intro i h
  simp [lowByte, getLsbD_joinBytes, h]

@[simp] theorem highByte_joinBytes (hi lo : Byte) : highByte (joinBytes hi lo) = hi := by
  apply BitVec.eq_of_getLsbD_eq
  intro i h
  have h' : ¬ 8 + i < 8 := by omega
  simp [highByte, getLsbD_joinBytes, h]

@[simp] theorem joinBytes_high_low (w : Word) : joinBytes (highByte w) (lowByte w) = w := by
  apply BitVec.eq_of_getLsbD_eq
  intro i hi
  simp only [joinBytes, highByte, lowByte, BitVec.getLsbD_append, BitVec.getLsbD_extractLsb']
  by_cases h : i < 8
  · simp [h]
  · have h1 : i - 8 < 8 := by omega
    have h2 : 8 + (i - 8) = i := by omega
    simp [h, h1, h2]

end Sys2Proof

namespace Sys2Proof.Machine

variable (r : RegFile)

@[simp] theorem RegFile.read16_write16_same (x : Reg16) (v : Word) :
    (r.write16 x v).read16 x = v := by
  cases x <;> rfl

theorem RegFile.read16_write16_other {x y : Reg16} (v : Word) (h : y ≠ x) :
    (r.write16 x v).read16 y = r.read16 y := by
  cases x <;> cases y <;> first | rfl | exact absurd rfl h

@[simp] theorem RegFile.read8_write8_same (x : Reg8) (v : Byte) : (r.write8 x v).read8 x = v := by
  cases x <;> simp [RegFile.read8, RegFile.write8, isHighHalf]

theorem RegFile.read8_write8_other {x y : Reg8} (v : Byte) (h : y ≠ x) :
    (r.write8 x v).read8 y = r.read8 y := by
  cases x <;> cases y <;>
    first
    | exact absurd rfl h
    | simp [RegFile.read8, RegFile.write8, RegFile.read16, RegFile.write16, isHighHalf, pairOf]

/-- The only 16-bit view an 8-bit write changes is its own pair (R23). -/
theorem RegFile.read16_write8_other {x : Reg8} {y : Reg16} (v : Byte) (h : y ≠ pairOf x) :
    (r.write8 x v).read16 y = r.read16 y := by
  unfold RegFile.write8
  exact RegFile.read16_write16_other r _ h

theorem RegFile.write8_al (v : Byte) :
    r.write8 .al v = { r with ax := joinBytes (highByte r.ax) v } := rfl

theorem RegFile.write8_ah (v : Byte) :
    r.write8 .ah v = { r with ax := joinBytes v (lowByte r.ax) } := rfl

@[simp] theorem RegFile.write16_dx (v : Word) : r.write16 .dx v = { r with dx := v } := rfl

@[simp] theorem RegFile.write16_sp (v : Word) : r.write16 .sp v = { r with sp := v } := rfl

@[simp] theorem RegFile.read16_sp : r.read16 .sp = r.sp := rfl

@[simp] theorem RegFile.read16_dx : r.read16 .dx = r.dx := rfl

@[simp] theorem RegFile.read16_ax : r.read16 .ax = r.ax := rfl

@[simp] theorem RegFile.read8_ah : r.read8 .ah = highByte r.ax := rfl

@[simp] theorem RegFile.read8_al : r.read8 .al = lowByte r.ax := rfl

@[simp] theorem RegFile.read8_dl : r.read8 .dl = lowByte r.dx := rfl

end Sys2Proof.Machine
end

