-- ==== Sys2Proof/Laws/Ops.lean ====
section
/-! SUPPORT. One lemma for each shared operation, saying everything it can do. -/

namespace Sys2Proof.Machine

variable {s t : State}

/-- All a raise does: only the status changes (R120). -/
theorem State.raise_next {k : FaultKind} :
    s.raise k = .next t ↔ t = { s with status := .faulted k } := by
  simp only [State.raise, Host.Outcome.next.injEq, eq_comm]

/-- All the loop does after a handler returns (R155). -/
theorem State.complete_next {n : Int} :
    s.complete n = .next t ↔ t = { s with pc := n, count := s.count + 1 } := by
  simp only [State.complete, Host.Outcome.next.injEq, eq_comm]

/-- All a push can do (R44): SP advances and the word is stored at the new stack address, or an
address of the word is outside memory. -/
theorem State.push16_cases (v : Word) (s : State) :
    (∃ m, writeWord s.mem s.advanceSp.stackAddress v = .ok m ∧
        s.push16 v = .ok { s.advanceSp with mem := m }) ∨
      (∃ a, writeWord s.mem s.advanceSp.stackAddress v = .outOfRange a ∧
        s.push16 v = .outOfRange a) := by
  unfold State.push16
  cases h : writeWord s.mem s.advanceSp.stackAddress v with
  | ok m => exact .inl ⟨m, rfl, rfl⟩
  | outOfRange a => exact .inr ⟨a, rfl, rfl⟩

/-- All a pop can do (R45): the word at the stack address is read and SP retreats, or an address of
the word is outside memory. -/
theorem State.pop16_cases (s : State) :
    (∃ v, readWord s.mem s.stackAddress = .ok v ∧ s.pop16 = .ok (v, s.retreatSp)) ∨
      (∃ a, readWord s.mem s.stackAddress = .outOfRange a ∧ s.pop16 = .outOfRange a) := by
  unfold State.pop16
  cases h : readWord s.mem s.stackAddress with
  | ok v => exact .inl ⟨v, rfl, rfl⟩
  | outOfRange a => exact .inr ⟨a, rfl, rfl⟩

theorem State.stackAddress_eq (s : State) :
    s.stackAddress = 0x10000 - (s.regs.sp.toNat : Int) := rfl

theorem State.advanceSp_stackAddress (s : State) :
    s.advanceSp.stackAddress = 0x10000 - (((s.regs.sp.toNat + 2) % 0x10000 : Nat) : Int) := by
  simp [State.stackAddress_eq, BitVec.toNat_add]

/-- Where the stack word lies when SP is 2 or more: both its bytes are inside memory. -/
theorem State.stackAddress_inside (h : 2 ≤ s.regs.sp.toNat) :
    0 ≤ s.stackAddress ∧ s.stackAddress + 1 < (Config.memSize : Int) ∧
      s.stackAddress.toNat = 0x10000 - s.regs.sp.toNat ∧
      (s.stackAddress + 1).toNat = 0x10000 - s.regs.sp.toNat + 1 := by
  have := s.regs.sp.isLt
  simp only [State.stackAddress_eq, Config.memSize]
  omega

/-- A pop with SP at 2 or more (R45). -/
theorem State.pop16_inside (h : 2 ≤ s.regs.sp.toNat) :
    s.pop16 = .ok (joinBytes (s.mem.byteAt (0x10000 - s.regs.sp.toNat + 1))
      (s.mem.byteAt (0x10000 - s.regs.sp.toNat)), s.retreatSp) := by
  obtain ⟨h0, h1, h2, h3⟩ := State.stackAddress_inside h
  unfold State.pop16
  rw [readWord_ok h0 h1, h2, h3]

/-- A push with the advanced SP at 2 or more (R44). -/
theorem State.push16_inside (v : Word) (h : 2 ≤ (s.regs.sp + 2).toNat) :
    s.push16 v = .ok { s.advanceSp with
      mem := (s.mem.setByte (0x10000 - (s.regs.sp + 2).toNat) (lowByte v)).setByte
        (0x10000 - (s.regs.sp + 2).toNat + 1) (highByte v) } := by
  obtain ⟨h0, h1, h2, h3⟩ := State.stackAddress_inside (s := s.advanceSp) h
  rw [State.advanceSp_regs] at h2 h3
  unfold State.push16
  rw [writeWord_ok v h0 h1, h2, h3]

theorem State.ended_false_iff : s.ended = false ↔ s.status = .running := by
  unfold State.ended
  cases s.status <;> simp

/-- All the loop's checks can answer, in their order (R151). -/
theorem State.loopStop_cases (s : State) :
    (s.halted = true ∧ s.loopStop = some (.halted s.rc)) ∨
      (s.halted = false ∧ s.atInstructionBound = true ∧
        s.loopStop = some (.boundStop .instructionCount)) ∨
      (s.halted = false ∧ s.atInstructionBound = false ∧ (Config.memSize : Int) ≤ s.pc ∧
        s.loopStop = some (.boundStop .addressTop)) ∨
      (s.halted = false ∧ s.atInstructionBound = false ∧ s.pc < (Config.memSize : Int) ∧
        s.loopStop = none) := by
  unfold State.loopStop
  cases s.halted <;> cases s.atInstructionBound <;>
    by_cases h : (Config.memSize : Int) ≤ s.pc <;> (simp [h]; try omega)

/-- All fetching can answer below the top of memory: a fault at a negative `pc`, or what the decoder
reads from the window (R126, R154). -/
theorem State.fetchDecode_inside (h0 : 0 ≤ s.pc) (h1 : s.pc < (Config.memSize : Int)) :
    s.fetchDecode =
      match decode s.window with
      | .instr i _ => .instr i
      | .invalidOpcode op => .raises (.invalidOpcode op s.byteAfterOpcode s.offset)
      | .missingOperand k => .raises (.memoryBounds (s.pc + k) s.offset)
      | .noByte => .raises (.memoryBounds s.pc s.offset) := by
  unfold State.fetchDecode
  rcases readByte_cases s.mem s.pc with ⟨-, -, h⟩ | ⟨h, -⟩
  · cases decode s.window <;> simp [h]
  · omega

theorem State.fetchDecode_negative (h : s.pc < 0) :
    s.fetchDecode = .raises (.memoryBounds s.pc s.offset) := by
  unfold State.fetchDecode
  rcases readByte_cases s.mem s.pc with ⟨h', -⟩ | ⟨-, h'⟩
  · omega
  · rw [h']

/-- The window's bytes: the opcode byte and, where they lie inside memory, the two after it. -/
theorem State.window_eq (h : s.pc.toNat < Config.memSize) :
    s.window = s.mem.byteAt s.pc.toNat ::
      (if s.pc.toNat + 1 < Config.memSize then
        s.mem.byteAt (s.pc.toNat + 1) ::
          (if s.pc.toNat + 2 < Config.memSize then [s.mem.byteAt (s.pc.toNat + 2)] else [])
      else []) := by
  simp [State.window, bytesFrom, h]

end Sys2Proof.Machine
end

