-- ==== Sys2Proof/Laws/Exec.lean ====
section
/-! SUPPORT. All each meaning can answer, and all a step can do, said once. -/

namespace Sys2Proof.Machine

variable {s t : State}

/-- All a service does to the state: AL, the halt flag and return code, `out`, and the input and draw
counters; everything else is unchanged (R115). -/
theorem runService_frame (v : Service) (s : State) :
    (runService v s).mem = s.mem ∧ (runService v s).pc = s.pc ∧
      (runService v s).status = s.status ∧ (runService v s).count = s.count ∧
      (runService v s).maxInstructions = s.maxInstructions ∧
      (∃ al, (runService v s).regs = { s.regs with ax := joinBytes (highByte s.regs.ax) al }) ∧
      (∃ bs, (runService v s).out = s.out ++ bs) := by
  have keep : ({ s.regs with ax := joinBytes (highByte s.regs.ax) (lowByte s.regs.ax) } : RegFile)
      = s.regs := by simp
  cases v
  case vector0Terminate => exact ⟨rfl, rfl, rfl, rfl, rfl, ⟨_, keep.symm⟩, [], by simp [runService, serviceVector0Terminate]⟩
  case terminate => exact ⟨rfl, rfl, rfl, rfl, rfl, ⟨_, keep.symm⟩, [], by simp [runService, serviceTerminate]⟩
  case readChar1 => exact ⟨rfl, rfl, rfl, rfl, rfl, ⟨_, rfl⟩, [], by simp [runService, serviceReadChar1, State.readCharIntoAl]⟩
  case echoAndDraw2 => exact ⟨rfl, rfl, rfl, rfl, rfl, ⟨_, rfl⟩, _, rfl⟩
  case writeChar5 => exact ⟨rfl, rfl, rfl, rfl, rfl, ⟨_, keep.symm⟩, _, rfl⟩
  case writeAndDraw6 => exact ⟨rfl, rfl, rfl, rfl, rfl, ⟨_, rfl⟩, _, rfl⟩
  case readChar7 => exact ⟨rfl, rfl, rfl, rfl, rfl, ⟨_, rfl⟩, [], by simp [runService, serviceReadChar7, State.readCharIntoAl]⟩
  case readChar8 => exact ⟨rfl, rfl, rfl, rfl, rfl, ⟨_, rfl⟩, [], by simp [runService, serviceReadChar8, State.readCharIntoAl]⟩
  case printString9 => exact ⟨rfl, rfl, rfl, rfl, rfl, ⟨_, keep.symm⟩, _, rfl⟩
  case terminateWithCode76 => exact ⟨rfl, rfl, rfl, rfl, rfl, ⟨_, keep.symm⟩, [], by simp [runService, serviceTerminateWithCode76]⟩

/-- All CALL can answer (R84). -/
theorem execCall_cases (rel8 : Byte) (x8 : Option Byte) (s : State) :
    (∃ m, writeWord s.mem s.advanceSp.stackAddress s.returnOffset = .ok m ∧
        execCall rel8 x8 s =
          .next { s.advanceSp with mem := m, pc := s.callTarget rel8, count := s.count + 1 }) ∨
      (∃ a, writeWord s.mem s.advanceSp.stackAddress s.returnOffset = .outOfRange a ∧
        execCall rel8 x8 s =
          .next { s.advanceSp with status := .faulted (.memoryBounds a s.offset) }) := by
  unfold execCall
  rcases s.push16_cases s.returnOffset with ⟨m, hw, h⟩ | ⟨a, hw, h⟩
  · exact .inl ⟨m, hw, by rw [h]; rfl⟩
  · exact .inr ⟨a, hw, by rw [h]; rfl⟩

/-- All RET can answer (R86). -/
theorem execRet_cases (s : State) :
    (∃ off, readWord s.mem s.stackAddress = .ok off ∧
        execRet s = .next { s.retreatSp with pc := retTarget off, count := s.count + 1 }) ∨
      (∃ a, readWord s.mem s.stackAddress = .outOfRange a ∧
        execRet s = .next { s with status := .faulted (.memoryBounds a s.offset) }) := by
  unfold execRet
  rcases s.pop16_cases with ⟨v, hr, h⟩ | ⟨a, hr, h⟩
  · exact .inl ⟨v, hr, by rw [h]; rfl⟩
  · exact .inr ⟨a, hr, by rw [h]; rfl⟩

/-- All INT can answer (R97). -/
theorem execInt_cases (imm8 : Byte) (s : State) :
    (∃ v, interruptTable (intVector imm8) (highByte s.regs.ax) = some v ∧
        execInt imm8 s = .next { runService v s with
          pc := s.operandPointer + 1, count := (runService v s).count + 1 }) ∨
      (interruptTable (intVector imm8) (highByte s.regs.ax) = none ∧
        execInt imm8 s = .next { s with
          status := .faulted (.invalidInterrupt (intVector imm8) (highByte s.regs.ax) imm8) }) := by
  unfold execInt
  simp only [RegFile.read8_ah]
  cases h : interruptTable (intVector imm8) (highByte s.regs.ax) with
  | some v => exact .inl ⟨v, rfl, rfl⟩
  | none => exact .inr ⟨rfl, rfl⟩

/-- All a step can do, guards included (R151). -/
theorem step_cases (h : step s = .next t) :
    s.status = .running ∧
      ((∃ st, s.loopStop = some st ∧ t = { s with status := st }) ∨
       (∃ k, s.loopStop = none ∧ s.fetchDecode = .raises k ∧ t = { s with status := .faulted k }) ∨
       (∃ i, s.loopStop = none ∧ s.fetchDecode = .instr i ∧ exec i s = .next t)) := by
  unfold step at h
  cases he : s.ended with
  | true => rw [he] at h; simp at h
  | false =>
    refine ⟨State.ended_false_iff.1 he, ?_⟩
    rw [he] at h
    cases hl : s.loopStop with
    | some st =>
      rw [hl] at h
      exact .inl ⟨st, rfl, by simpa using h.symm⟩
    | none =>
      rw [hl] at h
      cases hf : s.fetchDecode with
      | raises k =>
        rw [hf] at h
        exact .inr (.inl ⟨k, rfl, rfl, State.raise_next.1 h⟩)
      | instr i =>
        rw [hf] at h
        exact .inr (.inr ⟨i, rfl, rfl, h⟩)

end Sys2Proof.Machine
end

