-- ==== Sys2Proof/Laws/Interrupt.lean ====
section
/-! SUPPORT. All the interrupt dispatch table can answer (R100 to R105). -/

namespace Sys2Proof.Machine

/-- Only INT 0x20 has vector 0 (R101). -/
theorem intVector_eq_zero (imm8 : Byte) : intVector imm8 = 0 ↔ imm8 = 0x20 := by
  unfold intVector Config.vectorBase
  rw [BitVec.toNat_eq]
  simp
  omega

/-- Only INT 0x21 has vector 1 (R101). -/
theorem intVector_eq_one (imm8 : Byte) : intVector imm8 = 1 ↔ imm8 = 0x21 := by
  unfold intVector Config.vectorBase
  rw [BitVec.toNat_eq]
  simp
  omega

/-- The selector each service of vector 1 stands at (R100). -/
def selectorOf : Service → Byte
  | .vector0Terminate => 0
  | .terminate => 0
  | .readChar1 => 1
  | .echoAndDraw2 => 2
  | .writeChar5 => 5
  | .writeAndDraw6 => 6
  | .readChar7 => 7
  | .readChar8 => 8
  | .printString9 => 9
  | .terminateWithCode76 => 76

/-- An INT that has a service: 0x20 with any selector, or 0x21 with that service's (R100). -/
theorem interruptTable_eq_some {imm8 sel : Byte} {v : Service}
    (h : interruptTable (intVector imm8) sel = some v) :
    (imm8 = 0x20 ∧ v = .vector0Terminate) ∨
      (imm8 = 0x21 ∧ v ≠ .vector0Terminate ∧ sel = selectorOf v) := by
  unfold interruptTable at h
  split at h
  · rename_i h0
    cases h
    exact .inl ⟨(intVector_eq_zero imm8).1 h0, rfl⟩
  · split at h
    · rename_i h1
      refine .inr ⟨(intVector_eq_one imm8).1 h1, ?_⟩
      repeat' split at h
      all_goals cases h
      all_goals exact ⟨by decide, by assumption⟩
    · cases h

/-- Every service of vector 1 is reached (R100). -/
theorem interruptTable_selectorOf {v : Service} (h : v ≠ .vector0Terminate) :
    interruptTable (intVector 0x21) (selectorOf v) = some v := by
  cases v <;> first | rfl | exact absurd rfl h

theorem interruptTable_vector0 (sel : Byte) :
    interruptTable (intVector 0x20) sel = some .vector0Terminate := rfl

end Sys2Proof.Machine
end

