-- ==== Sys2Proof/Laws/Load.lean ====
section
/-! SUPPORT. The load interface: what a placed image reads as (R146), and which images are accepted
(R147). -/

namespace Sys2Proof.Machine

/-- A placed image reads as its bytes, and every other address as unlisted (R146). -/
theorem byteAt_imageCells (bs : List Byte) (a c : Nat) :
    (imageCells a bs).byteAt c =
      if a ≤ c then (bs[c - a]?).getD Config.unlistedByte else Config.unlistedByte := by
  induction bs generalizing a with
  | nil => simp [imageCells, Memory.byteAt]
  | cons b bs ih =>
    have shift : a + 1 ≤ c → (b :: bs)[c - a]? = bs[c - (a + 1)]? := by
      intro h
      rw [show c - a = (c - (a + 1)) + 1 by omega]
      rfl
    unfold imageCells
    split
    · rename_i hb
      rw [ih]
      by_cases h1 : a + 1 ≤ c
      · rw [if_pos h1, if_pos (by omega), shift h1]
      · rw [if_neg h1]
        split
        · obtain rfl : c = a := by omega
          simp [hb]
        · rfl
    · rw [Memory.byteAt, ih]
      by_cases h1 : a + 1 ≤ c
      · rw [if_neg (by omega), if_pos h1, if_pos (by omega), shift h1]
      · by_cases h2 : c = a
        · subst h2
          simp
        · rw [if_neg h2, if_neg h1, if_neg (by omega)]

/-- An image that fits is loaded (R146). -/
theorem load_short {bound : Option Nat} {input image : List Byte}
    (h : image.length ≤ Config.maxImage) :
    load bound input (some image) = .loaded (startState bound input image) :=
  if_pos h

/-- A longer image is rejected (R147). -/
theorem load_long {bound : Option Nat} {input image : List Byte}
    (h : ¬ image.length ≤ Config.maxImage) :
    load bound input (some image) = .capacityError :=
  if_neg h

end Sys2Proof.Machine
end

