-- ==== Sys2Proof/Laws/PerInstr.lean ====
section
/-! SUPPORT. Facts about each instruction as syntax. -/

namespace Sys2Proof.Laws.EncodedLength

/-- A well-formed instruction's encoding has the length its format gives it (R57). -/
def Statement (i : Instr) : Prop := i.wellFormed = true → (encode i).length = i.length

theorem nop : Statement .nop := fun _ => rfl

theorem movAh (imm8 : Byte) : Statement (.movAh imm8) := fun _ => rfl

theorem movDx (imm16 : Word) : Statement (.movDx imm16) := fun _ => rfl

theorem ret : Statement .ret := fun _ => rfl

theorem int (imm8 : Byte) : Statement (.int imm8) := fun _ => rfl

theorem call (rel8 : Byte) (x8 : Option Byte) : Statement (.call rel8 x8) := by
  intro h
  cases x8 with
  | some x => rfl
  | none => cases h

theorem jmp (rel8 : Byte) : Statement (.jmp rel8) := fun _ => rfl

end Sys2Proof.Laws.EncodedLength
end

