-- ==== Sys2Proof/Laws/Safety.lean ====
section
/-! SUPPORT. What the terms of Safety.lean say of a fetch, and what leaves closed code closed. -/

namespace Sys2Proof.Machine

variable {s u : State} {code : Nat → Prop} {top : Nat}

/-- A running state is free of a fault. -/
theorem State.faultFree_of_running (h : s.status = .running) : s.FaultFree := by
  intro k hk
  rw [h] at hk
  cases hk

/-- Three bytes that all lie inside memory. -/
theorem bytesFrom_three (m : Memory) {a : Nat} (h : a + 3 ≤ Config.memSize) :
    bytesFrom m a 3 = [m.byteAt a, m.byteAt (a + 1), m.byteAt (a + 2)] := by
  have h0 : a < Config.memSize := by omega
  have h1 : a + 1 < Config.memSize := by omega
  have h2 : a + 1 + 1 < Config.memSize := by omega
  simp [bytesFrom, h0, h1, h2]

/-- Code stays closed under writes at `top` or above. -/
theorem codeClosed_of_below {m m' : Memory} (htop : top ≤ Config.memSize)
    (h : codeClosed code top m) (same : ∀ a, a < top → m'.byteAt a = m.byteAt a) :
    codeClosed code top m' := by
  intro a ha
  obtain ⟨h3, i, rest, hd, hlead⟩ := h a ha
  refine ⟨h3, i, rest, ?_, hlead⟩
  rw [bytesFrom_three m (by omega)] at hd
  rw [bytesFrom_three m' (by omega), same a (by omega), same (a + 1) (by omega),
    same (a + 2) (by omega), hd]

/-- Closed code, for an instruction that leaves memory and SP alone. -/
theorem State.InClosedCode.keep (h : s.InClosedCode code top) (hmem : u.mem = s.mem)
    (hsp : u.regs.sp = s.regs.sp) (hserved : servedSelector (u.regs.read8 .ah))
    (hhere : u.halted = true ∨ goesOn code u.pc) : u.InClosedCode code top where
  inMemory := h.inMemory
  closed := hmem ▸ h.closed
  served := hserved
  here := hhere
  spEven := by
    have := h.spEven
    unfold State.SpEven at *
    rw [hsp]
    exact this
  stackAbove := by rw [hsp]; exact h.stackAbove
  returns := by rw [hsp, hmem]; exact h.returns

/-- Where the loop goes on in closed code, it fetches an instruction that leads only to code. -/
theorem State.InClosedCode.fetch (h : s.InClosedCode code top) (hh : s.halted = false)
    (hp : s.pc < (Config.memSize : Int)) :
    ∃ (n : Nat) (i : Instr) (rest : List Byte), s.pc = n ∧ n + 3 ≤ top ∧
      decode s.window = .instr i rest ∧ s.fetchDecode = .instr i ∧ leadsToCode code n i := by
  rcases h.here with h' | h' | ⟨n, hn, hcode⟩
  · rw [hh] at h'
    cases h'
  · omega
  · obtain ⟨h3, i, rest, hd, hlead⟩ := h.closed n hcode
    have hw : decode s.window = .instr i rest := by
      unfold State.window
      rw [hn]
      exact hd
    refine ⟨n, i, rest, hn, h3, hw, ?_, hlead⟩
    rw [State.fetchDecode_inside (by omega) hp, hw]

end Sys2Proof.Machine
end

