-- ==== Sys2Proof/Tests/Slice0.lean ====
section
/-! SUPPORT. Tests of the model. Expected results come from the spec: its encodings (30_encoding.md)
and its vectors W-, V- and P- (95_test_vectors.md), each named where it is used. After them, for each
statement with hypotheses, a witness that meets all of them. -/

namespace Sys2Proof.Tests

open Sys2Proof Sys2Proof.Machine

/-- The reset state at `pc`, with memory and registers given. -/
def at_ (pc : Int) (mem : Memory) (regs : RegFile := RegFile.reset) : State :=
  { State.reset with pc := pc, mem := mem, regs := regs }

/-- The registers at reset with AX, DX and SP given. -/
def rf (ax dx sp : Word) : RegFile := { RegFile.reset with ax := ax, dx := dx, sp := sp }

/-- `CD n` at 0x0100 with AX and DX given. -/
def intAt (n : Byte) (ax dx : Word) : State := at_ 0x100 [(0x100, 0xCD), (0x101, n)] (rf ax dx 0)

/-- The state an outcome holds. -/
def nextOf : Host.Outcome State Fault Refusal → Option State
  | .next s => some s
  | .fault _ => none
  | .refused _ => none

/-- One field of the state one step leads to. -/
def after {α : Type} (f : State → α) (s : State) : Option α := (nextOf (step s)).map f

/-! ### Decoding: words written out from R57, R59 and opcode_table.json -/

theorem test_decode_nop : decode [0b01011010] = .instr .nop [] := by decide
theorem test_decode_movAh : decode [0b10110100, 0x09] = .instr (.movAh 0x09) [] := by decide
theorem test_decode_movDx : decode [0b10111010, 0x0B, 0x01] = .instr (.movDx 0x010B) [] := by decide
theorem test_decode_ret : decode [0b11000011] = .instr .ret [] := by decide
theorem test_decode_int : decode [0b11001101, 0x21] = .instr (.int 0x21) [] := by decide
theorem test_decode_call :
    decode [0b11101000, 0x03, 0x7F] = .instr (.call 0x03 (some 0x7F)) [] := by decide
theorem test_decode_jmp : decode [0b11101011, 0xFE] = .instr (.jmp 0xFE) [] := by decide
theorem test_decode_call_cut : decode [0xE8, 0x03] = .instr (.call 0x03 none) [] := by decide
theorem test_decode_leaves_rest : decode [0xC3, 0x5A] = .instr .ret [0x5A] := by decide
theorem test_decode_invalid_90 : decode [0x90, 0xCD] = .invalidOpcode 0x90 := by decide
theorem test_decode_missing : decode [0xBA, 0x34] = .missingOperand 2 := by decide
theorem test_table_word : decodeTableWord 24 0x010BBA = some (.movDx 0x010B) := by decide
theorem test_table_word_short : decodeTableWord 8 0xE8 = some (.call 0 (some 0)) := by decide

/-! ### WellFormed: the one check, on a CALL without its third byte (R57) -/

theorem test_wellFormed_refuses_cut_call : (Instr.call 0x03 none).wellFormed = false := by decide
theorem test_wellFormed_whole_call : (Instr.call 0x03 (some 0x00)).wellFormed = true := by decide

/-! ### One step of each instruction -/

/-- V-DT-1. -/
theorem test_nop : after (fun t => (t.pc, t.count)) (at_ 0x100 [(0x100, 0x5A)]) =
    some (0x101, 1) := by decide
/-- V-DT-2, its second step. -/
theorem test_nop_then_top : after (fun t => t.status) (at_ 0x10000 [(0xFFFF, 0x5A)]) =
    some (.boundStop .addressTop) := by decide
/-- V-DT-3. -/
theorem test_movAh : after (fun t => (t.regs.ax, t.pc))
    (at_ 0x100 [(0x100, 0xB4), (0x101, 0x09)] (rf 0x00AA 0 0)) = some (0x09AA, 0x102) := by decide
/-- V-DT-5. -/
theorem test_movAh_at_top : after (fun t => t.status) (at_ 0xFFFF [(0xFFFF, 0xB4)]) =
    some (.faulted (.memoryBounds 0x10000 0xFEFF)) := by decide
/-- V-DT-6. -/
theorem test_movDx : after (fun t => (t.regs.dx, t.regs.read8 .dl, t.pc))
    (at_ 0x102 [(0x102, 0xBA), (0x103, 0x0B), (0x104, 0x01)]) = some (0x010B, 0x0B, 0x105) := by
  decide
/-- V-DT-8. -/
theorem test_movDx_at_top : after (fun t => t.status)
    (at_ 0xFFFE [(0xFFFE, 0xBA), (0xFFFF, 0x34)]) =
    some (.faulted (.memoryBounds 0x10000 0xFEFE)) := by decide
/-- V-CR-3: a target below 0 is not wrapped. -/
theorem test_jmp_below_zero : after (fun t => t.pc) (at_ 0x10 [(0x10, 0xEB), (0x11, 0x80)]) =
    some (-110) := by decide
/-- V-CR-4: a target above the top is not wrapped. -/
theorem test_jmp_above_top : after (fun t => t.pc) (at_ 0xFF90 [(0xFF90, 0xEB), (0xFF91, 0x7F)]) =
    some 0x10011 := by decide
/-- V-CR-9: a CALL in the reserved region pushes a truncated offset. -/
theorem test_call_low : after (fun t => (t.pc, t.regs.sp, t.mem.byteAt 0xFFFE, t.mem.byteAt 0xFFFF))
    (at_ 0xF0 [(0xF0, 0xE8), (0xF1, 0x0C)]) = some (0xFF, 2, 0xF3, 0xFF) := by decide
/-- V-CR-15: the last stack word below the wrap of SP. -/
theorem test_call_deep : after (fun t => (t.pc, t.regs.sp, t.mem.byteAt 2, t.mem.byteAt 3))
    (at_ 0x100 [(0x100, 0xE8)] (rf 0 0 0xFFFC)) = some (0x103, 0xFFFE, 0x03, 0x00) := by decide
/-- V-CR-16. -/
theorem test_ret : after (fun t => (t.pc, t.regs.sp, t.mem.byteAt 0xFFFC))
    (at_ 0x100 [(0x100, 0xC3), (0xFFFC, 0x08)] (rf 0 0 4)) = some (0x108, 2, 0x08) := by decide
/-- V-CR-12. -/
theorem test_ret_empty_stack : after (fun t => t.status) (at_ 0x100 [(0x100, 0xC3)]) =
    some (.faulted (.memoryBounds 0x10000 0)) := by decide
/-- V-INT-9, V-INT-11 and V-INT-3: print up to the dollar, print to the end, read a byte. -/
theorem test_int_console :
    after (fun t => t.out) { intAt 0x21 0x0900 0x0200 with
      mem := [(0x100, 0xCD), (0x101, 0x21), (0x200, 0x48), (0x201, 0x69), (0x202, 0x24)] } =
        some [0x48, 0x69] ∧
    after (fun t => t.out) { intAt 0x21 0x0900 0xFFFE with
      mem := [(0x100, 0xCD), (0x101, 0x21), (0xFFFE, 0x41), (0xFFFF, 0x42)] } =
        some [0x41, 0x42] ∧
    after (fun t => (t.regs.ax, t.out)) { intAt 0x21 0x0100 0 with input := [0x78] } =
        some (0x0178, []) := by decide
/-- V-INT-13, V-INT-16 and V-INT-19: the return code, an unserved selector, a negative vector. -/
theorem test_int_ends :
    after (fun t => (t.halted, t.rc, t.pc, t.status)) (intAt 0x21 0x4C05 0) =
      some (true, 5, 0x102, .running) ∧
    after (fun t => t.status) (intAt 0x21 0x4B00 0) =
      some (.faulted (.invalidInterrupt 1 75 0x21)) ∧
    after (fun t => t.status) (intAt 0x1F 0 0) =
      some (.faulted (.invalidInterrupt (-1) 0 0x1F)) := by decide

/-! ### The loop, the fetch and the host's interface -/

/-- V-EX-1 and V-EX-2: the record of an invalid opcode. -/
theorem test_invalid_opcode_record :
    after (fun t => t.status) (at_ 0xFFFF [(0xFFFF, 0x01)]) =
      some (.faulted (.invalidOpcode 0x01 none 0xFEFF)) ∧
    after (fun t => t.status) (at_ 0x50 [(0x50, 0x01), (0x51, 0x02)]) =
      some (.faulted (.invalidOpcode 0x01 (some 0x02) (-176))) := by decide
/-- V-EX-4: the fetch fault at a negative pc. -/
theorem test_negative_pc : after (fun t => t.status) (at_ (-1) []) =
    some (.faulted (.memoryBounds (-1) (-257))) := by decide
/-- V-LP-2 and V-LP-3b: the count bound is checked before the fetch and before the address top. -/
theorem test_count_bound :
    after (fun t => t.status) { at_ 0x100 [] with maxInstructions := some 0 } =
      some (.boundStop .instructionCount) ∧
    after (fun t => t.status) { at_ 0x10000 [] with maxInstructions := some 5, count := 5 } =
      some (.boundStop .instructionCount) := by decide
/-- W4: two pushes and two pops. -/
theorem test_stack :
    (match State.pushAll [0x1234, 0xABCD] State.reset with
      | .ok t => (match State.popMany 2 t with
        | .ok (vs, u) => (vs, u.regs.sp, t.mem.byteAt 0xFFFE, t.mem.byteAt 0xFFFD)
        | .outOfRange _ => ([], 1, 0, 0))
      | .outOfRange _ => ([], 1, 0, 0)) = ([0xABCD, 0x1234], 0, 0x34, 0xAB) := by decide
/-- R146 and W9, on small images: a zero byte is not listed, and no image is a load error. -/
theorem test_load : load none [] (some [0xB4, 0x00, 0xCD]) =
    .loaded { State.reset with mem := [(0x100, 0xB4), (0x102, 0xCD)] } ∧
    load none [] none = .loadError := by decide
/-- Writing the value an unlisted address reads as removes the entry. -/
theorem test_memory_canonical : Memory.setByte [(1, 5), (7, 9)] 1 0 = [(7, 9)] ∧
    Memory.setByte [(1, 5), (7, 9)] 3 2 = [(1, 5), (3, 2), (7, 9)] := by decide
/-- The host's placed word is what the next step runs: P3's first instruction. -/
theorem test_withFetchWord : after (fun t => t.pc) (State.reset.withFetchWord 24 0x0003E8) =
    some 0x106 := by decide
/-- P3 and P5: the assembled displacements, and the listing of the first line of P5. -/
theorem test_listing : assembleCall 0x100 0x106 = some (.call 0x03 (some 0x00)) ∧
    assembleJmp 0x100 0x100 = some (.jmp 0xFE) ∧
    listBytes 0x100 [0xEB, 0xFE] = some (.instr .jmp (.target 0x100)) ∧
    lineText (.instr .jmp (.target 0x100)) = "JMP 0x100" := by decide
/-- V-DT-11: with the other value of the parameter, 0x90 is NOP and 0x5A is invalid. -/
theorem test_other_nop : decodeWith 0x90 [0x90] = .instr .nop [] ∧
    decodeWith 0x90 [0x5A] = .invalidOpcode 0x5A := by decide

/-! ### Witnesses: the hypotheses of each statement can be met together -/

theorem witness_DecodeOfEncodeIsTheInstruction :
    (Instr.call 0x80 (some 0xFF)).wellFormed = true := by decide
theorem witness_EncodeOfDecodeIsTheBytes :
    decode [0xE8, 0x80, 0xFF, 0x5A] = .instr (.call 0x80 (some 0xFF)) [0x5A] := by decide
theorem witness_UnlistedOpcodeBytesFault :
    ((at_ 0xFFFF [(0xFFFF, 1)]).Ready ∧ (at_ 0xFFFF [(0xFFFF, 1)]).mem.byteAt 0xFFFF ∉
      [0x5A, 0xB4, 0xBA, 0xC3, 0xCD, 0xE8, 0xEB]) ∧
    ((at_ 0 []).Ready ∧ (at_ 0 []).mem.byteAt 0 ∉
      [0x5A, 0xB4, 0xBA, 0xC3, 0xCD, 0xE8, 0xEB]) := by decide
theorem witness_OperandBytesAreAllLegal : opcodeTable 0xEB ≠ none := by decide
theorem witness_NopIsTheParameterByteOnly :
    ((0x5A : Byte) = 0x5A ∨ (0x5A : Byte) = 0x90) ∧ ((0x90 : Byte) = 0x5A ∨ (0x90 : Byte) = 0x90) ∧
    (0x90 : Byte) ≠ 0x5A := by decide
theorem witness_StepExecutesTheDecodedInstruction :
    ((at_ 0xFFFD [(0xFFFD, 0xC3)]).Ready ∧
      decode (at_ 0xFFFD [(0xFFFD, 0xC3)]).window = .instr .ret [0, 0]) ∧
    (0 ≤ (at_ 0xFFFD []).pc ∧ (at_ 0xFFFD []).pc + 2 < 0x10000) ∧
    (0 ≤ (at_ 0xFFFE []).pc ∧ (at_ 0xFFFE []).pc = 0xFFFE) ∧
    (0 ≤ (at_ 0xFFFF []).pc ∧ (at_ 0xFFFF []).pc = 0xFFFF) := by decide
theorem witness_PlacedWordIsTheNextInstruction :
    (at_ 0xFFFD []).Ready ∧ (at_ 0xFFFD []).pc + 2 < 0x10000 ∧
    decodeTableWord 24 0x0003E8 = some (.call 0x03 (some 0x00)) := by decide
theorem witness_LoopChecks_halted :
    State.reset.status = .running ∧ { State.reset with halted := true }.halted = true := by decide
theorem witness_LoopChecks_bound :
    { State.reset with maxInstructions := some 0 }.status = .running ∧
    { State.reset with maxInstructions := some 0 }.halted = false ∧
    { State.reset with maxInstructions := some 0 }.maxInstructions = some 0 ∧ 0 ≤ 0 := by decide
theorem witness_LoopChecks_top :
    (at_ 0x10000 []).status = .running ∧ (at_ 0x10000 []).halted = false ∧
    (∀ n, (at_ 0x10000 []).maxInstructions = some n → (at_ 0x10000 []).count < n) ∧
    0x10000 ≤ (at_ 0x10000 []).pc :=
  ⟨rfl, rfl, fun _ h => Option.noConfusion rfl (heq_of_eq h), by decide⟩
theorem witness_StepsFollowExactlyWhileRunning :
    { State.reset with status := .halted 0 }.status ≠ .running := by decide
theorem witness_NegativePcFaultsAtFetch :
    (at_ (-1) []).status = .running ∧ (at_ (-1) []).halted = false ∧
    (at_ (-1) []).atInstructionBound = false ∧ (at_ (-1) []).pc < 0 := by decide
theorem witness_OperandsPastMemoryFault :
    ((at_ 0xFFFF [(0xFFFF, 0xE8)]).Ready ∧
      (at_ 0xFFFF [(0xFFFF, 0xE8)]).mem.byteAt 0xFFFF ∈ [0xB4, 0xBA, 0xCD, 0xE8, 0xEB]) ∧
    ((at_ 0xFFFE [(0xFFFE, 0xBA)]).Ready ∧
      (at_ 0xFFFE [(0xFFFE, 0xBA)]).mem.byteAt 0xFFFE = 0xBA) ∧
    ((at_ 0xFFFE [(0xFFFE, 0xE8)]).Ready ∧
      (at_ 0xFFFE [(0xFFFE, 0xE8)]).mem.byteAt 0xFFFE = 0xE8) := by decide
theorem witness_FaultingStepsLeavePcCountOutAndMemory :
    ∃ t k, step State.reset = .next t ∧ t.status = .faulted k := ⟨_, _, rfl, rfl⟩
theorem witness_DecodedInstructionsFaultExactlyWhen :
    (at_ 0x100 [(0x100, 0xC3)]).Ready ∧
    decode (at_ 0x100 [(0x100, 0xC3)]).window = .instr .ret [0, 0] ∧
    ∃ t, step (at_ 0x100 [(0x100, 0xC3)]) = .next t := ⟨by decide, by decide, _, rfl⟩
theorem witness_MovAhWritesAh :
    (∃ t, exec (.movAh 0xFF) State.reset = .next t) ∧ (at_ 0xFFFF [(0xFFFF, 0xB4)]).Ready ∧
    (at_ 0xFFFF [(0xFFFF, 0xB4)]).mem.byteAt 0xFFFF = 0xB4 := ⟨⟨_, rfl⟩, by decide, by decide⟩
theorem witness_MovDxWritesDx :
    (∃ t, exec (.movDx (joinBytes 0xAB 0xCD)) State.reset = .next t) ∧
    ((at_ 0xFFFE [(0xFFFE, 0xBA)]).Ready ∧
      (at_ 0xFFFE [(0xFFFE, 0xBA)]).mem.byteAt 0xFFFE = 0xBA) ∧
    ((at_ 0xFFFF [(0xFFFF, 0xBA)]).Ready ∧
      (at_ 0xFFFF [(0xFFFF, 0xBA)]).mem.byteAt 0xFFFF = 0xBA) :=
  ⟨⟨_, rfl⟩, by decide, by decide⟩
theorem witness_ExecChangesOnlyItsDestinations :
    (∃ t, exec .nop State.reset = .next t) ∧ (∃ t, exec (.movAh 1) State.reset = .next t) ∧
    (∃ t, exec (.movDx 1) State.reset = .next t) ∧
    (∃ t, exec .ret (at_ 0 [] (rf 0 0 2)) = .next t) ∧
    (∃ t, exec (.int 0x20) State.reset = .next t) ∧
    (∃ t, exec (.call 0 none) State.reset = .next t) ∧
    (∃ t, exec (.jmp 0) State.reset = .next t) :=
  ⟨⟨_, rfl⟩, ⟨_, rfl⟩, ⟨_, rfl⟩, ⟨_, rfl⟩, ⟨_, rfl⟩, ⟨_, rfl⟩, ⟨_, rfl⟩⟩
theorem witness_JmpGoesToItsTarget :
    ((at_ 0xFFFE [(0xFFFE, 0xEB), (0xFFFF, 0xFE)]).Ready ∧
      (at_ 0xFFFE [(0xFFFE, 0xEB), (0xFFFF, 0xFE)]).mem.byteAt 0xFFFE = 0xEB ∧
      (at_ 0xFFFE [(0xFFFE, 0xEB), (0xFFFF, 0xFE)]).mem.byteAt 0xFFFF = 0xFE) ∧
    ((at_ 0xFFFF [(0xFFFF, 0xEB)]).Ready ∧
      (at_ 0xFFFF [(0xFFFF, 0xEB)]).mem.byteAt 0xFFFF = 0xEB) := by decide
theorem witness_JmpGoesToItsTarget_next :
    (∃ t, exec (.jmp 0x00) State.reset = .next t) ∧ (∃ t, exec (.jmp 0x7F) State.reset = .next t) ∧
    (∃ t, exec (.jmp 0x80) State.reset = .next t) ∧ (∃ t, exec (.jmp 0xFF) State.reset = .next t) :=
  ⟨⟨_, rfl⟩, ⟨_, rfl⟩, ⟨_, rfl⟩, ⟨_, rfl⟩⟩
theorem witness_CallPushesTheReturnOffset :
    2 ≤ ((rf 0 0 0).sp + 2).toNat ∧ 2 ≤ ((rf 0 0 0xFFFD).sp + 2).toNat := by decide
theorem witness_CallIgnoresItsThirdByte :
    (at_ 0xFFFD [(0xFFFD, 0xE8)]).Ready ∧
    (at_ 0xFFFD [(0xFFFD, 0xE8)]).mem.byteAt 0xFFFD = 0xE8 ∧
    (at_ 0xFFFD [(0xFFFD, 0xE8)]).pc + 2 < 0x10000 := by decide
theorem witness_CallFaultsWhenSpWraps :
    ((rf 0 0 0xFFFE).sp + 2).toNat < 2 ∧ ((rf 0 0 0xFFFF).sp + 2).toNat < 2 := by decide
theorem witness_RetGoesToThePoppedOffset :
    2 ≤ (rf 0 0 2).sp.toNat ∧ (rf 0 0 0).sp = 0 ∧
    ∃ t, exec .ret (at_ 0x100 [] (rf 0 0 2)) = .next t := ⟨by decide, by decide, _, rfl⟩
theorem witness_RetAfterCallResumesAfterTheCall :
    0xFD ≤ (at_ 0xFD []).pc ∧ (at_ 0xFD []).pc ≤ 0xFFFF ∧
    2 ≤ ((at_ 0xFD []).regs.sp + 2).toNat ∧
    ∃ t u : State, exec (.call 0 (some 0)) (at_ 0xFD []) = .next t ∧ u.regs.sp = t.regs.sp ∧
      u.mem.byteAt (0x10000 - t.regs.sp.toNat) = t.mem.byteAt (0x10000 - t.regs.sp.toNat) ∧
      u.mem.byteAt (0x10000 - t.regs.sp.toNat + 1) = t.mem.byteAt (0x10000 - t.regs.sp.toNat + 1) :=
  ⟨by decide, by decide, by decide, _, _, rfl, rfl, rfl, rfl⟩
theorem witness_PushesThenPopsReturnInReverse :
    (rf 0 0 0xFFFC).sp.toNat + 2 * [(0x1234 : Word)].length < 0x10000 := by decide
theorem witness_AssembledTransfersReachTheirTargets :
    assembleJmp 0x100 0x181 = some (.jmp 0x7F) ∧ assembleJmp 0x100 0x82 = some (.jmp 0x80) ∧
    assembleCall 0x100 0x182 = some (.call 0x7F (some 0)) ∧ (at_ 0x100 []).pc = 0x100 ∧
    (at_ 0x100 []).status = .running ∧
    ∃ t, exec (.call 0x7F (some 0)) (at_ 0x100 []) = .next t ∧ t.status = .running :=
  ⟨by decide, by decide, by decide, rfl, rfl, _, rfl, rfl⟩
theorem witness_FetchSeesTheStoredBytes :
    2 ≤ ((at_ 0xFFF0 []).regs.sp + 2).toNat ∧
    ∃ t, exec (.call 0x0B (some 0)) (at_ 0xFFF0 []) = .next t ∧
      t.pc = (at_ 0xFFF0 []).advanceSp.stackAddress := ⟨by decide, _, rfl, by decide⟩
theorem witness_RegisterViewsAlias :
    (Reg16.dx, Reg8.dh, Reg8.dl) ∈ [(Reg16.ax, Reg8.ah, Reg8.al), (Reg16.bx, Reg8.bh, Reg8.bl),
      (Reg16.cx, Reg8.ch, Reg8.cl), (Reg16.dx, Reg8.dh, Reg8.dl)] := by decide
/-- For MemoryWordsAreLittleEndian and OutOfRangeAccessesNameTheAddress. -/
theorem witness_MemoryAccesses :
    (0 ≤ (0xFFFF : Int) ∧ (0xFFFF : Int) < 0x10000) ∧
    (0 ≤ (0xFFFE : Int) ∧ (0xFFFE : Int) + 1 < 0x10000) ∧
    ((0xFFFF : Int) < 0 ∨ 0x10000 ≤ (0xFFFF : Int) + 1) ∧
    ((-1 : Int) < 0 ∨ 0x10000 ≤ (-1 : Int)) ∧
    ((0x10000 : Int) < 0 ∨ 0x10000 ≤ (0x10000 : Int)) := by decide
theorem witness_CanonicalMemoriesThatReadAlikeAreEqual :
    Memory.wf [(0, 1), (0xFFFF, 2)] = true ∧
    ∀ a, Memory.byteAt [(0, 1), (0xFFFF, 2)] a = Memory.byteAt [(0, 1), (0xFFFF, 2)] a :=
  ⟨by decide, fun _ => rfl⟩
theorem witness_ServedInterruptsComplete :
    (rf 0x4C00 0 0).read8 .ah ∈ [0, 1, 2, 5, 6, 7, 8, 9, 76] := by decide
theorem witness_UnservedVectorsRaise :
    ((0x1F : Byte) ≠ 0x20 ∧ (0x1F : Byte) ≠ 0x21) ∧ (0x22 : Byte) ≠ 0x20 ∧ (0x22 : Byte) ≠ 0x21 := by
  decide
theorem witness_UnservedSelectorsRaise :
    (rf 0x0300 0 0).read8 .ah ∉ [0, 1, 2, 5, 6, 7, 8, 9, 76] ∧
    (rf 0x4D00 0 0).read8 .ah ∉ [0, 1, 2, 5, 6, 7, 8, 9, 76] := by decide
/-- For TerminatingServicesHaltTheRun, ReadServicesFillAl, WriteServiceAppendsDl,
WriteAndDrawServicesLeaveAlOpen and PrintServiceStopsAtTheDollar. -/
theorem witness_Services :
    (rf 0 0 0).read8 .ah = 0 ∧ (rf 0x4C05 0 0).read8 .ah = 76 ∧
    (rf 0x0100 0 0).read8 .ah ∈ [1, 7, 8] ∧ (rf 0x0700 0 0).read8 .ah ∈ [1, 7, 8] ∧
    (rf 0x0800 0 0).read8 .ah ∈ [1, 7, 8] ∧ (rf 0x0500 0 0).read8 .ah = 5 ∧
    (rf 0x0200 0 0).read8 .ah = 2 ∧ (rf 0x0600 0 0).read8 .ah = 6 ∧
    (rf 0x0900 0 0).read8 .ah = 9 ∧ { State.reset with input := [0x78] }.input = 0x78 :: [] ∧
    ({ State.reset with halted := true }.status = .running ∧
      { State.reset with halted := true }.halted = true) := by decide
theorem witness_OnlyTerminatingServicesSetTheHaltFlag :
    (intAt 0x20 0 0).halted = false ∧
    ∃ t, step (intAt 0x20 0 0) = .next t ∧ t.halted = true := ⟨rfl, _, rfl, rfl⟩
/-- For the statements whose hypotheses are a step, or a step and an invariant (OutputOnlyGrows,
CompletedInstructionsAreCounted and the five invariants): a CALL. -/
theorem witness_Invariants :
    (at_ 0x100 [(0x100, 0xE8)]).mem.wf = true ∧ (at_ 0x100 [(0x100, 0xE8)]).SpEven ∧
    (at_ 0x100 [(0x100, 0xE8)]).PcInReach ∧ (at_ 0x100 [(0x100, 0xE8)]).CountInBound ∧
    (at_ 0x100 [(0x100, 0xE8)]).HaltAgrees ∧ ∃ t, step (at_ 0x100 [(0x100, 0xE8)]) = .next t :=
  ⟨by decide, by decide, by decide, fun _ _ => Nat.zero_le _, fun _ h => Status.noConfusion h, _, rfl⟩
/-- A CALL of a RET, and an INT 0x20 after the CALL: closed code below 0x109. -/
def closedRun : State := at_ 0x100
  [(0x100, 0xE8), (0x101, 0x03), (0x103, 0xCD), (0x104, 0x20), (0x106, 0xC3)]
def closedCode (a : Nat) : Prop := a = 0x100 ∨ a = 0x103 ∨ a = 0x106
theorem closedRun_inClosedCode : closedRun.InClosedCode closedCode 0x109 where
  inMemory := by decide
  closed := by
    rintro a (rfl | rfl | rfl)
    · exact ⟨by decide, .call 0x03 (some 0), [], by decide,
        .inr ⟨0x106, by decide, .inr (.inr rfl)⟩, .inr ⟨0x103, by decide, .inr (.inl rfl)⟩⟩
    · exact ⟨by decide, .int 0x20, [0], by decide, .inl rfl⟩
    · exact ⟨by decide, .ret, [0, 0], by decide, trivial⟩
  served := by decide
  here := .inr (.inr ⟨0x100, rfl, .inl rfl⟩)
  spEven := by decide
  stackAbove := by decide
  returns := fun k h1 h2 => absurd (show 2 * k ≤ 0 from h2) (by omega)
theorem witness_StepsInClosedCodeStayFaultFree :
    closedRun.InClosedCode closedCode 0x109 ∧ closedRun.StackRoom 0x109 ∧
    ∃ t, step closedRun = .next t :=
  ⟨closedRun_inClosedCode, fun _ => ⟨by decide, by decide⟩, _, rfl⟩
/-- The run is CALL, RET, INT 0x20 and the halt; it has room on the stack throughout. -/
theorem witness_RunsOfClosedCodeAreSafe :
    closedRun.FaultFree ∧ closedRun.InClosedCode closedCode 0x109 ∧
    ∀ n t, Host.Core.run Sys2Proof.core n closedRun = .next t → t.StackRoom 0x109 := by
  refine ⟨fun _ h => Status.noConfusion h, closedRun_inClosedCode, ?_⟩
  intro n t h
  match n, h with
  | 0, h => cases h; exact fun _ => ⟨by decide, by decide⟩
  | 1, h => cases h; exact fun _ => ⟨by decide, by decide⟩
  | 2, h => cases h; exact fun _ => ⟨by decide, by decide⟩
  | 3, h => cases h; exact fun _ => ⟨by decide, by decide⟩
  | 4, h => cases h; exact fun _ => ⟨by decide, by decide⟩
  | _ + 5, h => cases h
theorem witness_BoundedRunsEnd :
    { State.reset with maxInstructions := some 0 }.status = .running ∧
    { State.reset with maxInstructions := some 0 }.maxInstructions = some 0 := by decide
theorem witness_StartStatesMeetTheInvariants :
    (List.replicate 0xFF00 (0x5A : Byte)).length ≤ 0xFF00 := by
  rw [List.length_replicate]
theorem witness_LoadPlacesTheImage :
    (List.replicate 0xFF00 (0x5A : Byte)).length ≤ 0xFF00 ∧
    0xFF00 < (List.replicate 0xFF01 (0x5A : Byte)).length := by
  rw [List.length_replicate, List.length_replicate]
  omega
theorem witness_FaultedRunsShowOnlyRecordAndOutput :
    { State.reset with status := .faulted (.memoryBounds 0x10000 0) }.status =
      .faulted (.memoryBounds 0x10000 0) ∧
    { at_ 7 [] with status := .faulted (.memoryBounds 0x10000 0) }.status =
      .faulted (.memoryBounds 0x10000 0) ∧ State.reset.out = (at_ 7 []).out := by decide

end Sys2Proof.Tests
end

section
/-! PROOFS. What a step does where the loop goes on to fetch, and the bytes it finds at the top of
memory. -/

namespace Sys2Proof.Machine

variable {s : State}

/-- None of the loop's checks stops a ready state (R151). -/
theorem State.Ready.loopStop_eq_none (h : s.Ready) : s.loopStop = none := by
  obtain ⟨-, hhalted, hbound, -, hpc⟩ := h
  rcases s.loopStop_cases with ⟨h', -⟩ | ⟨-, h', -⟩ | ⟨-, -, h', -⟩ | ⟨-, -, -, hnone⟩
  · simp [hhalted] at h'
  · simp [hbound] at h'
  · omega
  · exact hnone

/-- Where the fetch answers an instruction, the step is its handler (R61, R151). -/
theorem step_of_fetchDecode_instr (h : s.Ready) {i : Instr} (hf : s.fetchDecode = .instr i) :
    step s = exec i s := by
  simp [step, State.ended_false_iff.2 h.1, h.loopStop_eq_none, hf]

/-- Where the fetch raises, the step raises (R120, R154). -/
theorem step_of_fetchDecode_raises (h : s.Ready) {k : FaultKind}
    (hf : s.fetchDecode = .raises k) : step s = .next { s with status := .faulted k } := by
  simp [step, State.ended_false_iff.2 h.1, h.loopStop_eq_none, hf, State.raise]

/-- Where the window decodes, the step is the handler of the instruction (R61, R151). -/
theorem step_of_decode_instr (h : s.Ready) {i : Instr} {rest : List Byte}
    (hd : decode s.window = .instr i rest) : step s = exec i s := by
  have ⟨_, _, _, hlow, hhigh⟩ := h
  exact step_of_fetchDecode_instr h (by rw [State.fetchDecode_inside hlow hhigh, hd])

/-- Where the window lacks the operand byte at distance `k`, the step raises MemoryBounds at that
byte's address and changes only the status (R68, R120). -/
theorem step_of_decode_missingOperand (h : s.Ready) {k : Nat}
    (hd : decode s.window = .missingOperand k) :
    step s = .next { s with status := .faulted (.memoryBounds (s.pc + k) s.offset) } := by
  have ⟨_, _, _, hlow, hhigh⟩ := h
  exact step_of_fetchDecode_raises h (by rw [State.fetchDecode_inside hlow hhigh, hd])

/-- Where the first operand byte the window lacks is the one past the end of memory, the step raises
MemoryBounds there and changes only the status (R68, R123). -/
theorem step_of_operand_past_memory (h : s.Ready) {k : Nat}
    (hd : decode s.window = .missingOperand k) (hk : s.pc + k = 0x10000) :
    step s = .next { s with status := .faulted (.memoryBounds 0x10000 (s.pc - 0x100)) } := by
  rw [step_of_decode_missingOperand h hd, hk]
  rfl

/-- Only the opcode byte is inside memory at the last address. -/
theorem State.window_at_FFFF (h : s.pc = 0xFFFF) : s.window = [s.mem.byteAt 0xFFFF] := by
  rw [State.window_eq (by simp [h, Config.memSize])]
  simp [h, Config.memSize]

/-- The opcode byte and one more are inside memory at the last address but one. -/
theorem State.window_at_FFFE (h : s.pc = 0xFFFE) :
    s.window = [s.mem.byteAt 0xFFFE, s.mem.byteAt 0xFFFF] := by
  rw [State.window_eq (by simp [h, Config.memSize])]
  simp [h, Config.memSize]

end Sys2Proof.Machine
end

section
/-! PROOFS. The register moves (R78, R79): their encodings, their whole effect, and the fault where
an operand byte lies past the end of memory. -/

namespace Sys2Proof.Machine

@[simp] theorem RegFile.read8_dh (r : RegFile) : r.read8 .dh = highByte r.dx := rfl

/-! ### Decoding -/

theorem decode_movAh (rest : List Byte) :
    decode (0xB4 :: rest) = decodeByteOperand .movAh rest := rfl

theorem decode_movDx (rest : List Byte) :
    decode (0xBA :: rest) = decodeWordOperand .movDx rest := rfl

/-! ### Effect -/

/-- The whole effect of MOV AH (R78). -/
theorem exec_movAh (imm8 : Byte) (s : State) :
    exec (.movAh imm8) s = .next { s with
      regs := { s.regs with ax := joinBytes imm8 (s.regs.read8 .al) },
      pc := s.pc + 2, count := s.count + 1 } := by
  have hpc : s.operandPointer + 1 = s.pc + 2 := Int.add_assoc s.pc 1 1
  rw [← hpc]
  rfl

/-- The whole effect of MOV DX (R79). -/
theorem exec_movDx (imm16 : Word) (s : State) :
    exec (.movDx imm16) s = .next { s with
      regs := { s.regs with dx := imm16 }, pc := s.pc + 3, count := s.count + 1 } := by
  have hpc : s.operandPointer + 2 = s.pc + 3 := Int.add_assoc s.pc 1 2
  rw [← hpc]
  rfl

/-! ### The operand past the end of memory -/

/-- MOV AH at the last address lacks its operand (R68). -/
theorem decode_window_movAh_at_FFFF {s : State} (hpc : s.pc = 0xFFFF)
    (hop : s.mem.byteAt 0xFFFF = 0xB4) : decode s.window = .missingOperand 1 := by
  rw [State.window_at_FFFF hpc, hop, decode_movAh]
  rfl

/-- MOV DX at the last address lacks its low-order operand byte (R68). -/
theorem decode_window_movDx_at_FFFF {s : State} (hpc : s.pc = 0xFFFF)
    (hop : s.mem.byteAt 0xFFFF = 0xBA) : decode s.window = .missingOperand 1 := by
  rw [State.window_at_FFFF hpc, hop, decode_movDx]
  rfl

/-- MOV DX at the last address but one lacks its high-order operand byte (R68). -/
theorem decode_window_movDx_at_FFFE {s : State} (hpc : s.pc = 0xFFFE)
    (hop : s.mem.byteAt 0xFFFE = 0xBA) : decode s.window = .missingOperand 2 := by
  rw [State.window_at_FFFE hpc, hop, decode_movDx]
  rfl

/-! ### The obligations -/

/-- Settles O16: the encoding and the effect are the equations of MOV AH; at 0xFFFF the window lacks
the operand, so the step raises before AH is written. -/
theorem movAhWritesAh : Obligations.MovAhWritesAh := by
  unfold Obligations.MovAhWritesAh
  refine ⟨fun imm8 rest => decode_movAh (imm8 :: rest), exec_movAh, ?effect, ?fault⟩
  case effect =>
    intro imm8 s t h
    cases (exec_movAh imm8 s).symm.trans h
    simp
  case fault =>
    intro s hready hpc hop
    have hcut := decode_window_movAh_at_FFFF hpc hop
    exact ⟨_, step_of_operand_past_memory hready hcut (by omega), by simp [hpc], rfl⟩

/-- Settles O17: the encoding and the effect are the equations of MOV DX; at 0xFFFE the window lacks
the high-order operand byte and at 0xFFFF both, so the step raises before DX is written. -/
theorem movDxWritesDx : Obligations.MovDxWritesDx := by
  unfold Obligations.MovDxWritesDx
  refine ⟨fun lo hi rest => decode_movDx (lo :: hi :: rest), exec_movDx, ?effect, ?fault⟩
  case effect =>
    intro lo hi s t h
    cases (exec_movDx (joinBytes hi lo) s).symm.trans h
    simp
  case fault =>
    rintro s hready (hpc | hpc) hop <;> rw [hpc] at hop
    · have hcut := decode_window_movDx_at_FFFE hpc hop
      exact ⟨_, step_of_operand_past_memory hready hcut (by omega), rfl, rfl⟩
    · have hcut := decode_window_movDx_at_FFFF hpc hop
      exact ⟨_, step_of_operand_past_memory hready hcut (by omega), rfl, rfl⟩

end Sys2Proof.Machine
end

section
/-! PROOFS. JMP rel8 (R83): its encoding, its whole effect, where the four displacements of the
rule's corner cases lead, the jump to itself, and the fault where its operand byte lies past the end
of memory. -/

namespace Sys2Proof.Machine

variable {s t : State} {rel8 : Byte}

/-- Below the last address the window begins with the opcode byte and its first operand byte. -/
theorem State.window_eq_cons_cons (h0 : 0 ≤ s.pc) (h1 : s.pc + 1 < 0x10000) :
    ∃ rest, s.window = s.mem.byteAt s.pc.toNat :: s.mem.byteAt (s.pc.toNat + 1) :: rest := by
  have hoperand : s.pc.toNat + 1 < Config.memSize := by simp only [Config.memSize]; omega
  rw [State.window_eq (Nat.lt_of_succ_lt hoperand), if_pos hoperand]
  exact ⟨_, rfl⟩

theorem decode_jmp (rest : List Byte) :
    decode (0xEB :: rest) = decodeByteOperand .jmp rest := rfl

/-- The whole effect of JMP (R83). -/
theorem exec_jmp (rel8 : Byte) (s : State) :
    exec (.jmp rel8) s =
      .next { s with pc := (s.pc + 1) + rel8.toInt + 1, count := s.count + 1 } := rfl

/-- The target of a JMP, from the value of its displacement (R83). -/
theorem pc_of_exec_jmp {d : Int} (hd : rel8.toInt = d) (h : exec (.jmp rel8) s = .next t) :
    t.pc = (s.pc + 1) + d + 1 := by
  cases (exec_jmp rel8 s).symm.trans h
  rw [hd]

/-- A JMP with displacement -2 goes to its own opcode byte: only the count changes (R83). -/
theorem exec_jmp_self (s : State) :
    exec (.jmp 0xFE) s = .next { s with count := s.count + 1 } := by
  have htarget : (s.pc + 1) + (0xFE : Byte).toInt + 1 = s.pc := by
    rw [show (0xFE : Byte).toInt = -2 by decide]
    omega
  rw [exec_jmp, htarget]

/-- The step at a JMP whose two bytes lie inside memory is the JMP (R61, R83). -/
theorem step_jmp (h : s.Ready) (hop : s.mem.byteAt s.pc.toNat = 0xEB)
    (hrel : s.mem.byteAt (s.pc.toNat + 1) = rel8) (hin : s.pc + 1 < 0x10000) :
    step s = exec (.jmp rel8) s := by
  have ⟨_, _, _, hlow, _⟩ := h
  obtain ⟨rest, hwindow⟩ := State.window_eq_cons_cons hlow hin
  rw [hop, hrel] at hwindow
  exact step_of_decode_instr h (by rw [hwindow, decode_jmp]; rfl)

/-- JMP at the last address lacks its operand (R68). -/
theorem decode_window_jmp_at_FFFF (hpc : s.pc = 0xFFFF) (hop : s.mem.byteAt 0xFFFF = 0xEB) :
    decode s.window = .missingOperand 1 := by
  rw [State.window_at_FFFF hpc, hop, decode_jmp]
  rfl

/-- Settles O19: the encoding and the effect are the equations of JMP, and the corner cases are its
target at the value of each displacement; at 0xFFFF the window lacks the operand, so the step
raises. -/
theorem jmpGoesToItsTarget : Obligations.JmpGoesToItsTarget := by
  unfold Obligations.JmpGoesToItsTarget
  refine ⟨fun rel8 rest => decode_jmp (rel8 :: rest), exec_jmp,
    ?next, ?farthestForward, ?farthestBackward, ?ownOperand, ?itself, ?fault⟩
  case next =>
    intro s t h
    have hpc := pc_of_exec_jmp (d := 0) (by decide) h
    omega
  case farthestForward =>
    intro s t h
    have hpc := pc_of_exec_jmp (d := 127) (by decide) h
    omega
  case farthestBackward =>
    intro s t h
    have hpc := pc_of_exec_jmp (d := -128) (by decide) h
    omega
  case ownOperand =>
    intro s t h
    have hpc := pc_of_exec_jmp (d := -1) (by decide) h
    omega
  case itself =>
    intro s hready hop hrel hin
    rw [step_jmp hready hop hrel hin, exec_jmp_self]
  case fault =>
    intro s hready hpc hop
    have hcut := decode_window_jmp_at_FFFF hpc hop
    exact ⟨_, step_of_operand_past_memory hready hcut (by omega), by simp [hpc]⟩

end Sys2Proof.Machine
end

section
/-! PROOFS. INT (R97): its whole effect where the dispatch table has a service and where it has none,
and the selectors of vector 1 that have none. -/

namespace Sys2Proof.Machine

variable {s : State} {imm8 : Byte}

/-- INT with a service: the service runs, and the INT completes at the byte after its operand, also
when the service halts the run (R97, R116). -/
theorem exec_int_of_served {v : Service}
    (h : interruptTable (intVector imm8) (s.regs.read8 .ah) = some v) :
    exec (.int imm8) s =
      .next { runService v s with pc := s.pc + 2, count := s.count + 1 } := by
  obtain ⟨-, -, -, hcount, -⟩ := runService_frame v s
  have hpc : s.operandPointer + 1 = s.pc + 2 := Int.add_assoc s.pc 1 1
  rw [← hcount, ← hpc]
  simp only [exec, execInt, h, State.complete]

/-- INT with no service: InvalidInterrupt is raised and only the status changes (R102, R105, R120). -/
theorem exec_int_of_unserved
    (h : interruptTable (intVector imm8) (s.regs.read8 .ah) = none) :
    exec (.int imm8) s = .next { s with
      status := .faulted (.invalidInterrupt (intVector imm8) (s.regs.read8 .ah) imm8) } := by
  simp only [exec, execInt, h, State.raise]

/-- Every service stands at a selector R105 lists. -/
theorem selectorOf_mem (v : Service) :
    selectorOf v ∈ ([0, 1, 2, 5, 6, 7, 8, 9, 76] : List Byte) := by
  cases v <;> decide

/-- Vector 1 has no service at a selector outside R105's list. -/
theorem interruptTable_vector1_eq_none {sel : Byte}
    (h : sel ∉ ([0, 1, 2, 5, 6, 7, 8, 9, 76] : List Byte)) :
    interruptTable (intVector 0x21) sel = none := by
  rw [Option.eq_none_iff_forall_ne_some]
  intro v hv
  rcases interruptTable_eq_some hv with ⟨hvector, -⟩ | ⟨-, -, rfl⟩
  · exact absurd hvector (by decide)
  · exact h (selectorOf_mem v)

/-- The whole effect of the write service (R108). -/
theorem runService_writeChar5 (s : State) :
    runService .writeChar5 s = { s with out := s.out ++ [s.regs.read8 .dl] } := rfl

/-- Settles O35: a selector outside the list has no service, and an INT with no service raises. -/
theorem unservedSelectorsRaise : Obligations.UnservedSelectorsRaise := by
  unfold Obligations.UnservedSelectorsRaise
  intro s hsel
  exact exec_int_of_unserved (interruptTable_vector1_eq_none hsel)

/-- Settles O38: selector 5 is where the write service stands, and its whole effect is to append DL
to the output. -/
theorem writeServiceAppendsDl : Obligations.WriteServiceAppendsDl := by
  unfold Obligations.WriteServiceAppendsDl
  intro s hsel
  have htable : interruptTable (intVector 0x21) (s.regs.read8 .ah) = some .writeChar5 := by
    rw [hsel]
    exact interruptTable_selectorOf (v := .writeChar5) (by decide)
  rw [exec_int_of_served htable, runService_writeChar5]

end Sys2Proof.Machine
end

section
/-! PROOFS. Where execution starts, and with which status, at reset and after a load (R142). -/

namespace Sys2Proof.Machine

/-- The entry point is the program base (R142). -/
@[simp] theorem State.reset_pc : State.reset.pc = Config.programBase := rfl

/-- A reset state is ready to run (R142). -/
@[simp] theorem State.reset_status : State.reset.status = .running := rfl

/-- A load keeps the reset's entry point: the image is placed, never read for a vector (R142,
R146). -/
@[simp] theorem startState_pc (bound : Option Nat) (input image : List Byte) :
    (startState bound input image).pc = State.reset.pc := rfl

/-- A load keeps the reset's status (R142, R146). -/
@[simp] theorem startState_status (bound : Option Nat) (input image : List Byte) :
    (startState bound input image).status = State.reset.status := rfl

/-- Settles O52: the reset starts at the program base with status Running, and a load keeps both
fields, whatever the bound, the input and the image. -/
theorem executionStartsAtTheProgramBase : Obligations.ExecutionStartsAtTheProgramBase := by
  unfold Obligations.ExecutionStartsAtTheProgramBase
  have hpc : State.reset.pc = 0x0100 := State.reset_pc
  refine ⟨hpc, State.reset_status, fun bound input image => ⟨?_, ?_⟩⟩
  · exact (startState_pc bound input image).trans hpc
  · exact (startState_status bound input image).trans State.reset_status

end Sys2Proof.Machine
end

section
/-! PROOFS. The encodings (R57, R59): one decoding equation for each opcode byte, the round trip of
encoder and decoder, and the opcode bytes that have no table entry. -/

namespace Sys2Proof

open Machine

theorem decode_nop (rest : List Byte) : decode (0x5A :: rest) = .instr .nop rest := rfl

theorem decode_ret (rest : List Byte) : decode (0xC3 :: rest) = .instr .ret rest := rfl

theorem decode_int (rest : List Byte) :
    decode (0xCD :: rest) = decodeByteOperand .int rest := rfl

theorem decode_call (rest : List Byte) : decode (0xE8 :: rest) = decodeCallOperands rest := rfl

/-- Settles O1: each word by its opcode's decoding equation. -/
theorem specWordsDecodeToTheirInstructions : Obligations.SpecWordsDecodeToTheirInstructions := by
  unfold Obligations.SpecWordsDecodeToTheirInstructions
  exact ⟨decode_nop [], decode_movAh [0x09], decode_movDx [0x0B, 0x01], decode_ret [],
    decode_int [0x21], decode_call [0x03, 0x7F], decode_jmp [0xFE]⟩

/-- Settles O2: by the instruction, each by its opcode's decoding equation; the bytes of a word
operand join to the word again, and a well-formed CALL has its third byte. -/
theorem decodeOfEncodeIsTheInstruction : Obligations.DecodeOfEncodeIsTheInstruction := by
  unfold Obligations.DecodeOfEncodeIsTheInstruction
  intro i rest hwf
  cases i with
  | nop => exact decode_nop rest
  | movAh imm8 => exact decode_movAh (imm8 :: rest)
  | movDx imm16 =>
    have hdecode := decode_movDx (lowByte imm16 :: highByte imm16 :: rest)
    rwa [decodeWordOperand, joinBytes_high_low] at hdecode
  | ret => exact decode_ret rest
  | int imm8 => exact decode_int (imm8 :: rest)
  | call rel8 x8 =>
    cases x8 with
    | some x => exact decode_call (rel8 :: x :: rest)
    | none => cases hwf
  | jmp rel8 => exact decode_jmp (rel8 :: rest)

/-! ### What decoded bytes were -/

variable {bytes rest : List Byte} {i : Instr}

theorem decodeByteOperand_eq_instr {make : Byte → Instr}
    (h : decodeByteOperand make bytes = .instr i rest) : ∃ b, bytes = b :: rest ∧ i = make b := by
  rcases decodeByteOperand_cases make bytes with ⟨-, hd⟩ | ⟨b, tail, hbytes, hd⟩
  all_goals cases hd.symm.trans h
  exact ⟨b, hbytes, rfl⟩

theorem decodeWordOperand_eq_instr {make : Word → Instr}
    (h : decodeWordOperand make bytes = .instr i rest) :
    ∃ lo hi, bytes = lo :: hi :: rest ∧ i = make (joinBytes hi lo) := by
  rcases decodeWordOperand_cases make bytes with ⟨-, hd⟩ | ⟨b, -, hd⟩ | ⟨lo, hi, tail, hbytes, hd⟩
  all_goals cases hd.symm.trans h
  exact ⟨lo, hi, hbytes, rfl⟩

/-- The bytes of a CALL's operands are those the encoder writes after its opcode byte (R57, R68). -/
theorem decodeCallOperands_eq_instr (h : decodeCallOperands bytes = .instr i rest) :
    0xE8 :: bytes = encode i ++ rest := by
  rcases decodeCallOperands_cases bytes with ⟨-, hd⟩ | ⟨b, rfl, hd⟩ | ⟨b, x, tail, rfl, hd⟩
  · cases hd.symm.trans h
  · cases hd.symm.trans h
    rfl
  · cases hd.symm.trans h
    rfl

/-- Bytes that decode are the encoding of what they decode to (R57, R70). -/
theorem eq_encode_append_of_decode (h : decode bytes = .instr i rest) :
    bytes = encode i ++ rest := by
  cases bytes with
  | nil => cases h
  | cons op tail =>
    rw [decode_cons] at h
    cases htable : opcodeTable op with
    | none => rw [htable] at h; cases h
    | some o =>
      rw [htable] at h
      obtain rfl := opcodeTable_eq_some.1 htable
      cases o with
      | nop => cases h; rfl
      | movAh => obtain ⟨b, rfl, rfl⟩ := decodeByteOperand_eq_instr h; rfl
      | movDx =>
        obtain ⟨lo, hi, rfl, rfl⟩ := decodeWordOperand_eq_instr h
        simp [encode, encodeWith, opcodeByte]
      | ret => cases h; rfl
      | int => obtain ⟨b, rfl, rfl⟩ := decodeByteOperand_eq_instr h; rfl
      | call => exact decodeCallOperands_eq_instr h
      | jmp => obtain ⟨b, rfl, rfl⟩ := decodeByteOperand_eq_instr h; rfl

/-- Settles O3: the inversion of the decoder, read from right to left. -/
theorem encodeOfDecodeIsTheBytes : Obligations.EncodeOfDecodeIsTheBytes := by
  unfold Obligations.EncodeOfDecodeIsTheBytes
  exact fun _ _ _ h => (eq_encode_append_of_decode h).symm

/-! ### The opcode table -/

/-- The bytes without a table entry are those at which no entry stands (R61, R62). -/
theorem opcodeTable_eq_none {op : Byte} :
    opcodeTable op = none ↔ op ∉ ([0x5A, 0xB4, 0xBA, 0xC3, 0xCD, 0xE8, 0xEB] : List Byte) := by
  rw [Option.eq_none_iff_forall_ne_some]
  constructor
  · intro hnone hop
    simp only [List.mem_cons, List.not_mem_nil, or_false] at hop
    rcases hop with rfl | rfl | rfl | rfl | rfl | rfl | rfl <;> exact hnone _ rfl
  · intro hop o ho
    obtain rfl := opcodeTable_eq_some.1 ho
    cases o <;> exact hop (by decide)

/-- Settles O5: two operand bytes are enough for every entry of the table, whatever they hold. -/
theorem operandBytesAreAllLegal : Obligations.OperandBytesAreAllLegal := by
  unfold Obligations.OperandBytesAreAllLegal
  intro op b1 b2 rest hlisted
  obtain ⟨o, ho⟩ := Option.ne_none_iff_exists'.1 hlisted
  rw [decode_cons, ho]
  cases o <;> exact ⟨_, _, rfl⟩

theorem opcodeTableWith_eq_nop {nop op : Byte} : opcodeTableWith nop op = some .nop ↔ op = nop := by
  unfold opcodeTableWith
  constructor
  · intro h
    by_contra hne
    rw [if_neg hne] at h
    repeat' split at h
    all_goals cases h
  · exact fun h => if_pos h

/-- Settles O6: the parameter's byte is the first the table looks at, and neither 0x5A nor 0x90 is
one of the others. -/
theorem nopIsTheParameterByteOnly : Obligations.NopIsTheParameterByteOnly := by
  unfold Obligations.NopIsTheParameterByteOnly
  refine ⟨fun _ _ => opcodeTableWith_eq_nop, ?_, fun _ => rfl⟩
  rintro nop op - hop hne
  rw [opcodeTableWith, if_neg hne]
  rcases hop with rfl | rfl <;> rfl

end Sys2Proof
end

section
/-! PROOFS. The step from the outside: the loop's checks, the fetch, and the fault of each (R151,
R154). -/

namespace Sys2Proof.Machine

variable {s : State}

/-! ### The loop's checks -/

/-- Where a check of the loop stops the run, the step sets that status and changes nothing else. -/
theorem step_of_loopStop_some (hrun : s.status = .running) {st : Status}
    (h : s.loopStop = some st) : step s = .next { s with status := st } := by
  simp [step, State.ended_false_iff.2 hrun, h]

/-- No step follows a terminal status (R31; log 8). -/
theorem step_of_not_running (h : s.status ≠ .running) : step s = .fault .runEnded := by
  have hended : s.ended = true := by
    rw [← Bool.not_eq_false, State.ended_false_iff]
    exact h
  simp [step, hended]

/-- The halt flag is checked first (R151). -/
theorem step_of_halted (hrun : s.status = .running) (hhalted : s.halted = true) :
    step s = .next { s with status := .halted s.rc } :=
  step_of_loopStop_some hrun (by simp [State.loopStop, hhalted])

theorem State.atInstructionBound_eq_true :
    s.atInstructionBound = true ↔ ∃ n, s.maxInstructions = some n ∧ n ≤ s.count := by
  unfold State.atInstructionBound
  cases s.maxInstructions <;> simp

theorem State.atInstructionBound_eq_false :
    s.atInstructionBound = false ↔ ∀ n, s.maxInstructions = some n → s.count < n := by
  rw [← Bool.not_eq_true, State.atInstructionBound_eq_true]
  simp

/-- A check of the loop never raises a fault, always ends the run, and gives the status Halted only
with the halt flag set and its return code (R30, R151). -/
theorem State.loopStop_eq_some {st : Status} (h : s.loopStop = some st) :
    st ≠ .running ∧ (∀ k, st ≠ .faulted k) ∧
      ∀ rc, st = .halted rc → s.halted = true ∧ s.rc = rc := by
  rcases s.loopStop_cases with ⟨hhalted, hs⟩ | ⟨-, -, hs⟩ | ⟨-, -, -, hs⟩ | ⟨-, -, -, hs⟩ <;>
    cases hs.symm.trans h <;> simp [*]

/-- Where no check of the loop stops the run, the loop goes on below the top of memory (R151). -/
theorem State.loopStop_eq_none (h : s.loopStop = none) :
    s.halted = false ∧ s.atInstructionBound = false ∧ s.pc < (Config.memSize : Int) := by
  rcases s.loopStop_cases with ⟨-, hs⟩ | ⟨-, -, hs⟩ | ⟨-, -, -, hs⟩ | ⟨hhalted, hbound, hpc, -⟩
  · cases hs.symm.trans h
  · cases hs.symm.trans h
  · cases hs.symm.trans h
  · exact ⟨hhalted, hbound, hpc⟩

/-- Settles O9: each clause is the branch of the loop's checks that its hypotheses select. -/
theorem loopChecksStopTheRunInOrder : Obligations.LoopChecksStopTheRunInOrder := by
  unfold Obligations.LoopChecksStopTheRunInOrder
  refine fun s hrun => ⟨step_of_halted hrun, ?bound, ?top⟩
  case bound =>
    intro hhalted n hmax hcount
    have hbound : s.atInstructionBound = true :=
      State.atInstructionBound_eq_true.2 ⟨n, hmax, hcount⟩
    exact step_of_loopStop_some hrun (by simp [State.loopStop, hhalted, hbound])
  case top =>
    intro hhalted hmax hpc
    have hbound := State.atInstructionBound_eq_false.2 hmax
    have htop : (Config.memSize : Int) ≤ s.pc := hpc
    exact step_of_loopStop_some hrun (by simp [State.loopStop, hhalted, hbound, htop])

/-- Settles O11: below memory none of the checks stops the loop, and the fetch raises. -/
theorem negativePcFaultsAtFetch : Obligations.NegativePcFaultsAtFetch := by
  unfold Obligations.NegativePcFaultsAtFetch
  intro s hrun hhalted hbound hpc
  have hloop : s.loopStop = none := by
    have htop : ¬ (Config.memSize : Int) ≤ s.pc := by simp only [Config.memSize]; omega
    simp [State.loopStop, hhalted, hbound, htop]
  have hstep : step s = s.raise (.memoryBounds s.pc s.offset) := by
    simp [step, State.ended_false_iff.2 hrun, hloop, State.fetchDecode_negative hpc]
  exact ⟨_, hstep, rfl, rfl, rfl⟩

/-! ### The window -/

/-- All three bytes are inside memory below the last two addresses. -/
theorem State.window_of_inside (h0 : 0 ≤ s.pc) (h2 : s.pc + 2 < 0x10000) :
    s.window = [s.mem.byteAt s.pc.toNat, s.mem.byteAt (s.pc.toNat + 1),
      s.mem.byteAt (s.pc.toNat + 2)] :=
  bytesFrom_three s.mem (by simp only [Config.memSize]; omega)

/-- Inside memory the window begins with the opcode byte. -/
theorem State.window_eq_cons (h0 : 0 ≤ s.pc) (h1 : s.pc < (Config.memSize : Int)) :
    ∃ rest, s.window = s.mem.byteAt s.pc.toNat :: rest :=
  ⟨_, State.window_eq (by omega)⟩

/-- Settles O7: the step where the window decodes, and the window where three, two and one of its
bytes lie inside memory. -/
theorem stepExecutesTheDecodedInstruction : Obligations.StepExecutesTheDecodedInstruction := by
  unfold Obligations.StepExecutesTheDecodedInstruction
  exact ⟨fun _ _ _ hready hdecode => step_of_decode_instr hready hdecode,
    fun _ hpc => ⟨State.window_of_inside hpc, State.window_at_FFFE, State.window_at_FFFF⟩⟩

/-! ### The instruction the host places -/

theorem State.Ready.withFetchWord (h : s.Ready) (nbits w : Nat) :
    (s.withFetchWord nbits w).Ready := by
  unfold State.withFetchWord
  split <;> exact h

theorem decodeTableWord_eq_some {nbits w : Nat} {i : Instr} (h : decodeTableWord nbits w = some i) :
    ∃ rest, decode (tableBytes nbits w) = .instr i rest := by
  unfold decodeTableWord at h
  cases hd : decode (tableBytes nbits w) <;> rw [hd] at h <;> cases h
  exact ⟨_, rfl⟩

/-- The placed word is what the next fetch sees (log 12). -/
theorem State.window_withFetchWord (nbits w : Nat) (h0 : 0 ≤ s.pc) (h2 : s.pc + 2 < 0x10000) :
    (s.withFetchWord nbits w).window = tableBytes nbits w := by
  have hfits : s.pc.toNat + 3 ≤ Config.memSize := by simp only [Config.memSize]; omega
  have hinside : inMemory s.pc = true := (inMemory_iff s.pc).2 ⟨h0, by omega⟩
  rw [State.withFetchWord, if_pos hinside]
  unfold State.window
  rw [bytesFrom_three _ hfits]
  simp only [byteAt_storeBytes _ _ (tableBytes nbits w) hfits]
  simp [tableBytes]

/-- Settles O8: placing the word keeps the state ready and makes it the window. -/
theorem placedWordIsTheNextInstruction : Obligations.PlacedWordIsTheNextInstruction := by
  unfold Obligations.PlacedWordIsTheNextInstruction
  intro s nbits w i hready hpc hword
  have ⟨_, _, _, hlow, _⟩ := hready
  obtain ⟨rest, hdecode⟩ := decodeTableWord_eq_some hword
  rw [← State.window_withFetchWord nbits w hlow hpc] at hdecode
  exact step_of_decode_instr (hready.withFetchWord nbits w) hdecode

/-! ### Faults of the fetch -/

/-- The byte after the opcode, where it lies inside memory (R122, decision D31). -/
theorem State.byteAfterOpcode_eq (h0 : 0 ≤ s.pc) :
    s.byteAfterOpcode =
      if s.pc + 1 < 0x10000 then some (s.mem.byteAt (s.pc.toNat + 1)) else none := by
  have hnat : (s.pc + 1).toNat = s.pc.toNat + 1 := by omega
  have hin : inMemory (s.pc + 1) = true ↔ s.pc + 1 < 0x10000 := by
    rw [inMemory_iff]
    simp only [Config.memSize]
    omega
  unfold State.byteAfterOpcode readByte
  by_cases h : s.pc + 1 < 0x10000
  · rw [if_pos h, if_pos (hin.2 h), hnat]
  · rw [if_neg h, if_neg (mt hin.1 h)]

/-- Where the opcode byte is in no row of the table, the step raises InvalidOpcode and changes only
the status (R62, R120). -/
theorem step_of_unlisted_opcode (h : s.Ready)
    (hop : opcodeTable (s.mem.byteAt s.pc.toNat) = none) :
    step s = .next { s with
      status := .faulted
        (.invalidOpcode (s.mem.byteAt s.pc.toNat) s.byteAfterOpcode s.offset) } := by
  have ⟨_, _, _, hlow, hhigh⟩ := h
  obtain ⟨rest, hwindow⟩ := State.window_eq_cons hlow hhigh
  have hdecode : decode s.window = .invalidOpcode (s.mem.byteAt s.pc.toNat) := by
    rw [hwindow, decode_cons, hop]
  exact step_of_fetchDecode_raises h (by rw [State.fetchDecode_inside hlow hhigh, hdecode])

/-- 249 of the 256 bytes have no table entry (R62). -/
theorem length_filter_opcodeTable_eq_none :
    ((List.range 256).filter fun n => opcodeTable (BitVec.ofNat 8 n) = none).length = 249 := by
  decide +kernel

/-- Settles O4: the bytes without an entry are the unlisted ones, and at such a byte the fetch
raises. -/
theorem unlistedOpcodeBytesFault : Obligations.UnlistedOpcodeBytesFault := by
  unfold Obligations.UnlistedOpcodeBytesFault
  refine ⟨fun _ => opcodeTable_eq_none, length_filter_opcodeTable_eq_none, fun s hready hop => ?_⟩
  have ⟨_, _, _, hlow, _⟩ := hready
  rw [← State.byteAfterOpcode_eq hlow]
  exact ⟨_, step_of_unlisted_opcode hready (opcodeTable_eq_none.2 hop), rfl, rfl,
    step_of_not_running (by simp)⟩

/-- An opcode byte that needs an operand and stands alone lacks it (R57, R68). -/
theorem decode_lone_opcode {op : Byte} (h : op ∈ ([0xB4, 0xBA, 0xCD, 0xE8, 0xEB] : List Byte)) :
    decode [op] = .missingOperand 1 := by
  simp only [List.mem_cons, List.not_mem_nil, or_false] at h
  rcases h with rfl | rfl | rfl | rfl | rfl <;> rfl

/-- Settles O12: at 0xFFFF the opcode byte stands alone; at 0xFFFE one operand byte follows it,
which is not enough for MOV DX and all that CALL reads. -/
theorem operandsPastMemoryFault : Obligations.OperandsPastMemoryFault := by
  unfold Obligations.OperandsPastMemoryFault
  refine fun s hready => ⟨?fault, ?call⟩
  case fault =>
    rintro (⟨hpc, hop⟩ | ⟨hpc, hop⟩)
    · have hcut : decode s.window = .missingOperand 1 := by
        rw [State.window_at_FFFF hpc]
        exact decode_lone_opcode hop
      exact ⟨_, step_of_operand_past_memory hready hcut (by omega), rfl, rfl, rfl⟩
    · have hcut := decode_window_movDx_at_FFFE hpc hop
      exact ⟨_, step_of_operand_past_memory hready hcut (by omega), rfl, rfl, rfl⟩
  case call =>
    intro hpc hop
    have hdecode : decode s.window = .instr (.call (s.mem.byteAt 0xFFFF) none) [] := by
      rw [State.window_at_FFFE hpc, hop, decode_call]
      rfl
    exact step_of_decode_instr hready hdecode

end Sys2Proof.Machine
end

section
/-! PROOFS. Register views and memory: how the views of a pair overlap (R23), what checked accesses
answer inside and outside memory (R39 to R41), and that the canonical form is determined by what it
reads as. -/

namespace Sys2Proof.Machine

/-! ### The views of a pair -/

section Views

variable {x : Reg16} {h l : Reg8}

theorem RegFile.read8_of_high (r : RegFile) (hh : isHighHalf h = true) (hx : pairOf h = x) :
    r.read8 h = highByte (r.read16 x) := by
  simp [RegFile.read8, hh, hx]

theorem RegFile.read8_of_low (r : RegFile) (hl : isHighHalf l = false) (hx : pairOf l = x) :
    r.read8 l = lowByte (r.read16 x) := by
  simp [RegFile.read8, hl, hx]

/-- A write of the high half joins it above the low byte (R23). -/
theorem RegFile.read16_write8_high (r : RegFile) (v : Byte) (hh : isHighHalf h = true)
    (hx : pairOf h = x) : (r.write8 h v).read16 x = joinBytes v (lowByte (r.read16 x)) := by
  subst hx
  simp [RegFile.write8, hh]

/-- A write of the low half joins it below the high byte (R23). -/
theorem RegFile.read16_write8_low (r : RegFile) (v : Byte) (hl : isHighHalf l = false)
    (hx : pairOf l = x) : (r.write8 l v).read16 x = joinBytes (highByte (r.read16 x)) v := by
  subst hx
  simp [RegFile.write8, hl]

end Views

/-- Settles O28: each listed triple is a pair with its high and its low half, whose reads and writes
the four lemmas above give. -/
theorem registerViewsAlias : Obligations.RegisterViewsAlias := by
  unfold Obligations.RegisterViewsAlias
  intro r x h l hpair
  have ⟨hh, hhx, hl, hlx⟩ :
      isHighHalf h = true ∧ pairOf h = x ∧ isHighHalf l = false ∧ pairOf l = x := by
    simp only [List.mem_cons, List.not_mem_nil, or_false, Prod.mk.injEq] at hpair
    rcases hpair with ⟨rfl, rfl, rfl⟩ | ⟨rfl, rfl, rfl⟩ | ⟨rfl, rfl, rfl⟩ | ⟨rfl, rfl, rfl⟩
    all_goals decide
  simp [RegFile.read8_of_high _ hh hhx, RegFile.read8_of_low _ hl hlx,
    RegFile.read16_write8_high _ _ hh hhx, RegFile.read16_write8_low _ _ hl hlx]

/-! ### Words in memory -/

/-- The memory with a word stored, its low-order byte at the lower address (R40). -/
def Memory.setWord (m : Memory) (a : Nat) (v : Word) : Memory :=
  (m.setByte a (lowByte v)).setByte (a + 1) (highByte v)

@[simp] theorem Memory.byteAt_setWord_low (m : Memory) (a : Nat) (v : Word) :
    (m.setWord a v).byteAt a = lowByte v := by
  simp [Memory.setWord, Memory.byteAt_setByte]

@[simp] theorem Memory.byteAt_setWord_high (m : Memory) (a : Nat) (v : Word) :
    (m.setWord a v).byteAt (a + 1) = highByte v := by
  simp [Memory.setWord, Memory.byteAt_setByte]

theorem Memory.byteAt_setWord_other (m : Memory) {a c : Nat} (v : Word) (h0 : c ≠ a)
    (h1 : c ≠ a + 1) : (m.setWord a v).byteAt c = m.byteAt c := by
  simp [Memory.setWord, Memory.byteAt_setByte, h0, h1]

theorem Memory.wf_setWord {m : Memory} {a : Nat} (v : Word) (hm : m.wf = true)
    (ha : a + 1 < Config.memSize) : (m.setWord a v).wf = true :=
  Memory.wf_setByte _ (Memory.wf_setByte _ hm (by omega)) ha

/-- Storing a word keeps two memories alike wherever they were. -/
theorem Memory.byteAt_setWord_congr {m n : Memory} {c : Nat} (a : Nat) (v : Word)
    (h : m.byteAt c = n.byteAt c) : (m.setWord a v).byteAt c = (n.setWord a v).byteAt c := by
  simp only [Memory.setWord, Memory.byteAt_setByte, h]

/-! ### Accesses inside memory -/

section Accesses

variable (m : Memory) {a : Int}

theorem readByte_inside (h0 : 0 ≤ a) (h1 : a < (Config.memSize : Int)) :
    readByte m a = .ok (m.byteAt a.toNat) :=
  if_pos ((inMemory_iff a).2 ⟨h0, h1⟩)

theorem writeByte_inside (v : Byte) (h0 : 0 ≤ a) (h1 : a < (Config.memSize : Int)) :
    writeByte m a v = .ok (m.setByte a.toNat v) :=
  if_pos ((inMemory_iff a).2 ⟨h0, h1⟩)

theorem readWord_inside (h0 : 0 ≤ a) (h1 : a + 1 < (Config.memSize : Int)) :
    readWord m a = .ok (joinBytes (m.byteAt (a.toNat + 1)) (m.byteAt a.toNat)) := by
  rw [readWord_ok h0 h1, Int.toNat_add h0 Int.one_nonneg]
  rfl

theorem writeWord_inside (v : Word) (h0 : 0 ≤ a) (h1 : a + 1 < (Config.memSize : Int)) :
    writeWord m a v = .ok (m.setWord a.toNat v) := by
  rw [writeWord_ok v h0 h1, Int.toNat_add h0 Int.one_nonneg]
  rfl

/-! ### Accesses outside memory -/

theorem inMemory_eq_false (h : a < 0 ∨ (Config.memSize : Int) ≤ a) : ¬ inMemory a = true := by
  rw [inMemory_iff]
  omega

theorem readByte_outside (h : a < 0 ∨ (Config.memSize : Int) ≤ a) :
    readByte m a = .outOfRange a :=
  if_neg (inMemory_eq_false h)

theorem writeByte_outside (v : Byte) (h : a < 0 ∨ (Config.memSize : Int) ≤ a) :
    writeByte m a v = .outOfRange a :=
  if_neg (inMemory_eq_false h)

theorem readWord_outside (h : a < 0 ∨ (Config.memSize : Int) ≤ a) :
    readWord m a = .outOfRange a :=
  if_neg (inMemory_eq_false h)

theorem writeWord_outside (v : Word) (h : a < 0 ∨ (Config.memSize : Int) ≤ a) :
    writeWord m a v = .outOfRange a :=
  if_neg (inMemory_eq_false h)

/-- A word at the last address of memory has its high-order byte at 0x10000 (R41). -/
theorem readWord_last : readWord m 0xFFFF = .outOfRange 0x10000 := rfl

theorem writeWord_last (v : Word) : writeWord m 0xFFFF v = .outOfRange 0x10000 := rfl

end Accesses

/-- Settles O30: inside memory a write is `setByte` or `setWord`, whose reads are known; outside,
and for a word at the last address, the access is turned away. -/
theorem memoryWordsAreLittleEndian : Obligations.MemoryWordsAreLittleEndian := by
  unfold Obligations.MemoryWordsAreLittleEndian
  refine ⟨fun m _ => readByte_inside m, fun m _ => readWord_inside m,
    ?writeByte, ?writeWord, ?byteOutside, ?wordOutside⟩
  case writeByte =>
    intro m a v h0 h1
    refine ⟨_, writeByte_inside m v h0 h1, ?_, ?_⟩
    · rw [readByte_inside _ h0 h1, Memory.byteAt_setByte, if_pos rfl]
    · intro c hc
      rw [Memory.byteAt_setByte, if_neg (by omega)]
  case writeWord =>
    intro m a v h0 h1
    have hhigh : (a + 1).toNat = a.toNat + 1 := Int.toNat_add h0 Int.one_nonneg
    refine ⟨_, writeWord_inside m v h0 h1, ?_, ?_, ?_, ?_⟩
    · rw [readWord_inside _ h0 h1]
      simp
    · rw [readByte_inside _ h0 (lt_trans (Int.lt_succ a) h1)]
      simp
    · rw [readByte_inside _ (by omega) h1, hhigh]
      simp
    · intro c hlow hhigh
      exact Memory.byteAt_setWord_other m v (by omega) (by omega)
  case byteOutside =>
    intro m a v h
    exact ⟨⟨a, readByte_outside m h⟩, ⟨a, writeByte_outside m v h⟩⟩
  case wordOutside =>
    intro m a v h
    by_cases hlast : a = 0xFFFF
    · subst hlast
      exact ⟨⟨_, readWord_last m⟩, ⟨_, writeWord_last m v⟩⟩
    · have houtside : a < 0 ∨ (Config.memSize : Int) ≤ a := by simp only [Config.memSize]; omega
      exact ⟨⟨a, readWord_outside m houtside⟩, ⟨a, writeWord_outside m v houtside⟩⟩

/-- Settles O31: outside memory each access answers its own address, and a word at the last address
of memory the one above it. -/
theorem outOfRangeAccessesNameTheAddress : Obligations.OutOfRangeAccessesNameTheAddress := by
  unfold Obligations.OutOfRangeAccessesNameTheAddress
  exact ⟨fun m _ b v h => ⟨readByte_outside m h, readWord_outside m h, writeByte_outside m b h,
    writeWord_outside m v h⟩, fun m v => ⟨readWord_last m, writeWord_last m v⟩⟩

/-! ### The canonical form -/

/-- A canonical memory that starts with a cell does not read like one that lists nothing up to that
cell's address. -/
theorem Memory.byteAt_ne_of_head {a : Nat} {v : Byte} {m n : Memory} (hv : v ≠ Config.unlistedByte)
    (hn : n.wfFrom (a + 1) = true) : Memory.byteAt ((a, v) :: m) a ≠ n.byteAt a := by
  rw [Memory.byteAt_below hn (Nat.lt_succ_self a), Memory.byteAt, if_pos rfl]
  exact hv

/-- Taking a shared first cell off two canonical memories leaves them alike if they were. -/
theorem Memory.byteAt_tail_eq {a : Nat} {v w : Byte} {m n : Memory} (hm : m.wfFrom (a + 1) = true)
    (hn : n.wfFrom (a + 1) = true)
    (same : ∀ c, Memory.byteAt ((a, v) :: m) c = Memory.byteAt ((a, w) :: n) c) (c : Nat) :
    m.byteAt c = n.byteAt c := by
  by_cases hc : c = a
  · have hlt : c < a + 1 := by omega
    rw [Memory.byteAt_below hm hlt, Memory.byteAt_below hn hlt]
  · have := same c
    rwa [Memory.byteAt, Memory.byteAt, if_neg hc, if_neg hc] at this

/-- Canonical memories that read alike list the same cells. -/
theorem Memory.eq_of_byteAt_eq {lo : Nat} {m n : Memory} (hm : m.wfFrom lo = true)
    (hn : n.wfFrom lo = true) (same : ∀ a, m.byteAt a = n.byteAt a) : m = n := by
  induction m generalizing lo n with
  | nil =>
    cases n with
    | nil => rfl
    | cons cell n =>
      obtain ⟨b, w⟩ := cell
      obtain ⟨-, -, hw, -⟩ := Memory.wfFrom_cons.1 hn
      exact absurd (same b).symm (Memory.byteAt_ne_of_head (n := []) hw rfl)
  | cons cell m ih =>
    obtain ⟨a, v⟩ := cell
    obtain ⟨-, hamem, hv, hmtail⟩ := Memory.wfFrom_cons.1 hm
    cases n with
    | nil => exact absurd (same a) (Memory.byteAt_ne_of_head (n := []) hv rfl)
    | cons cell n =>
      obtain ⟨b, w⟩ := cell
      obtain ⟨-, hbmem, hw, hntail⟩ := Memory.wfFrom_cons.1 hn
      rcases Nat.lt_trichotomy a b with hab | rfl | hab
      · have hbelow : Memory.wfFrom (a + 1) ((b, w) :: n) = true :=
          Memory.wfFrom_cons.2 ⟨hab, hbmem, hw, hntail⟩
        exact absurd (same a) (Memory.byteAt_ne_of_head hv hbelow)
      · have hvw : v = w := by simpa [Memory.byteAt] using same a
        rw [hvw, ih hmtail hntail (Memory.byteAt_tail_eq hmtail hntail same)]
      · have hbelow : Memory.wfFrom (b + 1) ((a, v) :: m) = true :=
          Memory.wfFrom_cons.2 ⟨hab, hamem, hv, hmtail⟩
        exact absurd (same b).symm (Memory.byteAt_ne_of_head hw hbelow)

/-- Settles O32: the canonical form from address 0. -/
theorem canonicalMemoriesThatReadAlikeAreEqual :
    Obligations.CanonicalMemoriesThatReadAlikeAreEqual := by
  unfold Obligations.CanonicalMemoriesThatReadAlikeAreEqual
  exact fun _ _ hm hn same => Memory.eq_of_byteAt_eq hm hn same

end Sys2Proof.Machine
end

section
/-! PROOFS. The whole effect of NOP, RET and CALL (R77, R84, R86), each with the fault of its stack
access, and what RET makes of the word a CALL has pushed. -/

namespace Sys2Proof.Machine

variable {s t : State}

/-- The whole effect of NOP (R77). -/
theorem exec_nop (s : State) :
    exec .nop s = .next { s with pc := s.pc + 1, count := s.count + 1 } := rfl

/-- Settles O15: the whole effect of NOP. -/
theorem nopOnlyAdvances : Obligations.NopOnlyAdvances := by
  unfold Obligations.NopOnlyAdvances
  exact exec_nop

/-! ### Stack words -/

/-- The word whose low-order byte stands at an address (R39). -/
def Memory.wordAt (m : Memory) (a : Nat) : Word := joinBytes (m.byteAt (a + 1)) (m.byteAt a)

@[simp] theorem Memory.wordAt_setWord_same (m : Memory) (a : Nat) (v : Word) :
    (m.setWord a v).wordAt a = v := by
  simp [Memory.wordAt]

theorem Memory.wordAt_congr {m n : Memory} {a : Nat} (h0 : m.byteAt a = n.byteAt a)
    (h1 : m.byteAt (a + 1) = n.byteAt (a + 1)) : m.wordAt a = n.wordAt a := by
  rw [Memory.wordAt, Memory.wordAt, h0, h1]

/-- With SP at 0 or 1 the stack word does not lie whole inside memory: it begins at its end, or at
its last address (R26; log 15). -/
theorem State.stackAddress_outside (h : s.regs.sp.toNat < 2) :
    s.stackAddress = 0x10000 ∨ s.stackAddress = 0xFFFF := by
  rw [State.stackAddress_eq]
  omega

theorem State.pop16_outside (h : s.regs.sp.toNat < 2) : s.pop16 = .outOfRange 0x10000 := by
  unfold State.pop16
  rcases State.stackAddress_outside h with ha | ha <;> rw [ha]
  · rw [readWord_outside _ (by decide)]
  · rw [readWord_last]

theorem State.push16_outside (v : Word) (h : (s.regs.sp + 2).toNat < 2) :
    s.push16 v = .outOfRange 0x10000 := by
  unfold State.push16
  rcases State.stackAddress_outside (s := s.advanceSp) h with ha | ha <;> rw [ha]
  · rw [writeWord_outside _ _ (by decide)]
  · rw [writeWord_last]

/-! ### RET -/

/-- The whole effect of RET on a stack word inside memory (R86). -/
theorem exec_ret_inside (h : 2 ≤ s.regs.sp.toNat) :
    exec .ret s = .next { s with
      regs := { s.regs with sp := s.regs.sp - 2 },
      pc := retTarget (s.mem.wordAt (0x10000 - s.regs.sp.toNat)), count := s.count + 1 } := by
  simp only [exec, execRet, State.pop16_inside h]
  rfl

/-- RET on a stack word outside memory raises MemoryBounds and changes only the status (R45). -/
theorem exec_ret_outside (h : s.regs.sp.toNat < 2) :
    exec .ret s = .next { s with status := .faulted (.memoryBounds 0x10000 s.offset) } := by
  simp only [exec, execRet, State.pop16_outside h]
  rfl

/-- Where RET can lead (R86). -/
theorem retTarget_bounds (off : Word) : 0x100 ≤ retTarget off ∧ retTarget off ≤ 0x100FF := by
  have := off.isLt
  simp only [retTarget, Config.programBase]
  omega

/-- Settles O23: the encoding and the two effects of RET, and where its target can lie. -/
theorem retGoesToThePoppedOffset : Obligations.RetGoesToThePoppedOffset := by
  unfold Obligations.RetGoesToThePoppedOffset
  refine ⟨decode_ret, fun _ => exec_ret_inside, ?range, ?fault⟩
  case range =>
    intro s t hsp h
    cases (exec_ret_inside hsp).symm.trans h
    exact retTarget_bounds _
  case fault =>
    intro s hsp
    exact ⟨_, exec_ret_outside (by simp [hsp]), rfl⟩

/-! ### CALL -/

theorem State.returnOffset_eq (s : State) :
    s.returnOffset = BitVec.ofInt 16 (s.pc + 3 - 0x100) := by
  have hpc : s.operandPointer + 2 = s.pc + 3 := Int.add_assoc s.pc 1 2
  rw [State.returnOffset, hpc]
  rfl

/-- RET's target from a CALL's return offset, where the program offset does not wrap (R85, R88). -/
theorem retTarget_returnOffset (hlow : 0xFD ≤ s.pc) (hhigh : s.pc ≤ 0xFFFF) :
    retTarget s.returnOffset = s.pc + 3 := by
  rw [State.returnOffset_eq, retTarget, BitVec.toNat_ofInt]
  simp only [Config.programBase]
  omega

/-- The whole effect of CALL where the stack word lies inside memory (R84). -/
theorem exec_call_inside (rel8 : Byte) (x8 : Option Byte) (h : 2 ≤ (s.regs.sp + 2).toNat) :
    exec (.call rel8 x8) s = .next { s with
      regs := { s.regs with sp := s.regs.sp + 2 },
      mem := s.mem.setWord (0x10000 - (s.regs.sp + 2).toNat) s.returnOffset,
      pc := s.callTarget rel8, count := s.count + 1 } := by
  simp only [exec, execCall, State.push16_inside _ h]
  rfl

/-- A CALL that would store outside memory raises MemoryBounds after SP has advanced (R44;
log 7). -/
theorem exec_call_outside (rel8 : Byte) (x8 : Option Byte) (h : (s.regs.sp + 2).toNat < 2) :
    exec (.call rel8 x8) s = .next { s with
      regs := { s.regs with sp := s.regs.sp + 2 },
      status := .faulted (.memoryBounds 0x10000 s.offset) } := by
  simp only [exec, execCall, State.push16_outside _ h]
  rfl

/-- Settles O20: the effect of CALL, and what the memory with the word stored reads as. -/
theorem callPushesTheReturnOffset : Obligations.CallPushesTheReturnOffset := by
  unfold Obligations.CallPushesTheReturnOffset
  intro rel8 x8 s hsp
  rw [← State.returnOffset_eq]
  exact ⟨_, exec_call_inside rel8 x8 hsp, rfl, rfl, rfl, rfl, rfl, rfl, rfl,
    Memory.byteAt_setWord_low _ _ _, Memory.byteAt_setWord_high _ _ _,
    fun a hlow hhigh => Memory.byteAt_setWord_other _ _ hlow hhigh⟩

/-- Settles O21: the effect of CALL where the advanced SP is 0 or 1. -/
theorem callFaultsWhenSpWraps : Obligations.CallFaultsWhenSpWraps := by
  unfold Obligations.CallFaultsWhenSpWraps
  exact fun rel8 x8 _ hsp => ⟨_, exec_call_outside rel8 x8 hsp, rfl, rfl, rfl, rfl⟩

/-! ### CALL's third byte -/

theorem step_call (h : s.Ready) (hop : s.mem.byteAt s.pc.toNat = 0xE8) (hin : s.pc + 2 < 0x10000) :
    step s =
      exec (.call (s.mem.byteAt (s.pc.toNat + 1)) (some (s.mem.byteAt (s.pc.toNat + 2)))) s := by
  have ⟨_, _, _, hlow, _⟩ := h
  have hdecode : decode s.window = .instr
      (.call (s.mem.byteAt (s.pc.toNat + 1)) (some (s.mem.byteAt (s.pc.toNat + 2)))) [] := by
    rw [State.window_of_inside hlow hin, hop, decode_call]
    rfl
  exact step_of_decode_instr h hdecode

/-- CALL on two memories that differ in one byte: the next states differ in that byte alone, and
only in memory (R84). -/
theorem exec_call_of_memory_alike (rel8 : Byte) (x8 y8 : Option Byte) (s : State) {m : Memory}
    {b : Nat} (same : ∀ a, a ≠ b → m.byteAt a = s.mem.byteAt a) :
    ∃ t u, exec (.call rel8 x8) s = .next t ∧ exec (.call rel8 y8) { s with mem := m } = .next u ∧
      u.pc = t.pc ∧ u.regs = t.regs ∧ u.status = t.status ∧ u.count = t.count ∧
      ∀ a, a ≠ b → u.mem.byteAt a = t.mem.byteAt a := by
  rcases Nat.lt_or_ge (s.regs.sp + 2).toNat 2 with hsp | hsp
  · exact ⟨_, _, exec_call_outside rel8 x8 hsp, exec_call_outside rel8 y8 hsp, rfl, rfl, rfl, rfl,
      same⟩
  · exact ⟨_, _, exec_call_inside rel8 x8 hsp, exec_call_inside rel8 y8 hsp, rfl, rfl, rfl, rfl,
      fun a ha => Memory.byteAt_setWord_congr _ _ (same a ha)⟩

/-- Settles O22: the meaning does not use the third byte, and the opcode and its operand are still
decoded when it is overwritten. -/
theorem callIgnoresItsThirdByte : Obligations.CallIgnoresItsThirdByte := by
  unfold Obligations.CallIgnoresItsThirdByte
  refine ⟨fun _ _ _ _ => rfl, fun s v hready hop hin => ?_⟩
  have same (a : Nat) (ha : a ≠ s.pc.toNat + 2) :
      (s.mem.setByte (s.pc.toNat + 2) v).byteAt a = s.mem.byteAt a := by
    rw [Memory.byteAt_setByte, if_neg ha]
  have hready' : State.Ready { s with mem := s.mem.setByte (s.pc.toNat + 2) v } := hready
  have hstep := step_call hready' ((same s.pc.toNat (by omega)).trans hop) hin
  rw [step_call hready hop hin, hstep, same (s.pc.toNat + 1) (by omega)]
  exact exec_call_of_memory_alike _ _ _ s same

/-! ### CALL and what follows it -/

/-- Settles O24: the stack word RET pops is the offset the CALL pushed. -/
theorem retAfterCallResumesAfterTheCall : Obligations.RetAfterCallResumesAfterTheCall := by
  unfold Obligations.RetAfterCallResumesAfterTheCall
  intro rel8 x8 s t u hlow hhigh hsp hcall husp hbyte0 hbyte1
  cases (exec_call_inside rel8 x8 hsp).symm.trans hcall
  dsimp only at husp hbyte0 hbyte1
  have hword : u.mem.wordAt (0x10000 - u.regs.sp.toNat) = s.returnOffset := by
    rw [husp, Memory.wordAt_congr hbyte0 hbyte1, Memory.wordAt_setWord_same]
  refine ⟨_, exec_ret_inside (husp ▸ hsp), ?_, ?_, rfl⟩
  · simp only [hword, retTarget_returnOffset hlow hhigh]
  · simp only [husp, BitVec.add_sub_cancel]

/-- Settles O26: the displacement the assembler computes has the value that leads from the end of
the instruction to the target, and a CALL that still runs has not faulted. -/
theorem assembledTransfersReachTheirTargets : Obligations.AssembledTransfersReachTheirTargets := by
  unfold Obligations.AssembledTransfersReachTheirTargets
  rintro a target i s t (hjmp | hcall) rfl hrun h hstill
  · unfold assembleJmp at hjmp
    split at hjmp <;> cases hjmp
    have hrel : (BitVec.ofInt 8 (target - (s.pc + 2))).toInt = target - (s.pc + 2) :=
      BitVec.toInt_ofInt_eq_self (by decide) (by omega) (by omega)
    rw [pc_of_exec_jmp hrel h]
    omega
  · unfold assembleCall at hcall
    split at hcall <;> cases hcall
    have hrel : (BitVec.ofInt 8 (target - (s.pc + 3))).toInt = target - (s.pc + 3) :=
      BitVec.toInt_ofInt_eq_self (by decide) (by omega) (by omega)
    rcases Nat.lt_or_ge (s.regs.sp + 2).toNat 2 with hsp | hsp
    · cases (exec_call_outside _ _ hsp).symm.trans h
      cases hstill
    · cases (exec_call_inside _ _ hsp).symm.trans h
      simp only [State.callTarget, State.operandPointer, sext8, hrel]
      omega

/-- Settles O27: a CALL that leads to its own stack word is fetched from the memory it has
written. -/
theorem fetchSeesTheStoredBytes : Obligations.FetchSeesTheStoredBytes := by
  unfold Obligations.FetchSeesTheStoredBytes
  intro rel8 x8 s t hsp h hpc
  obtain ⟨h0, h1, hnat, -⟩ := State.stackAddress_inside (s := s.advanceSp) hsp
  rw [← hpc] at h0 h1 hnat
  obtain ⟨tail, hwindow⟩ := State.window_eq_cons_cons h0 h1
  rw [hnat] at hwindow
  cases (exec_call_inside rel8 x8 hsp).symm.trans h
  refine ⟨tail, hwindow.trans ?_⟩
  simp [State.returnOffset_eq]

end Sys2Proof.Machine
end

section
/-! PROOFS. Sequences of pushes and pops (R46): one push and one pop of a stack inside memory, and
the induction over the words. -/

namespace Sys2Proof.Machine

variable {s t : State}

/-- The state after a push inside memory (R44). -/
def State.pushed (s : State) (v : Word) : State :=
  { s.advanceSp with mem := s.mem.setWord (0x10000 - (s.regs.sp + 2).toNat) v }

theorem State.pushed_regs (s : State) (v : Word) :
    (s.pushed v).regs = { s.regs with sp := s.regs.sp + 2 } := rfl

theorem State.pushed_mem (s : State) (v : Word) :
    (s.pushed v).mem = s.mem.setWord (0x10000 - (s.regs.sp + 2).toNat) v := rfl

theorem toNat_sp_add_two {sp : Word} (h : sp.toNat + 2 < 0x10000) :
    (sp + 2).toNat = sp.toNat + 2 := by
  bv_omega

/-- One push of a sequence that leaves SP below 0x10000 (R44). -/
theorem State.pushAll_cons (v : Word) (vs : List Word) (h : s.regs.sp.toNat + 2 < 0x10000) :
    s.pushAll (v :: vs) = (s.pushed v).pushAll vs := by
  have hsp := toNat_sp_add_two h
  simp only [State.pushAll, State.push16_inside v (show 2 ≤ (s.regs.sp + 2).toNat by omega)]
  rfl

/-- Popping one word more is a pop after the others (R45, R46). -/
theorem State.popMany_succ {n : Nat} {vs : List Word} (h : s.popMany n = .ok (vs, t))
    (hsp : 2 ≤ t.regs.sp.toNat) :
    s.popMany (n + 1) =
      .ok (vs ++ [t.mem.wordAt (0x10000 - t.regs.sp.toNat)], t.retreatSp) := by
  induction n generalizing s vs with
  | zero =>
    cases h
    simp only [State.popMany, State.pop16_inside hsp]
    rfl
  | succ n ih =>
    rw [State.popMany] at h ⊢
    cases hpop : s.pop16 with
    | outOfRange a => rw [hpop] at h; cases h
    | ok popped =>
      obtain ⟨w, u⟩ := popped
      simp only [hpop] at h ⊢
      cases hrest : u.popMany n with
      | outOfRange a => rw [hrest] at h; cases h
      | ok rest =>
        rw [hrest] at h
        cases h
        rw [ih hrest]
        rfl

/-- Settles O25: by the words, for every stack they fit on. The words above the first leave its two
bytes alone, so the last pop finds it. -/
theorem pushesThenPopsReturnInReverse : Obligations.PushesThenPopsReturnInReverse := by
  unfold Obligations.PushesThenPopsReturnInReverse
  intro vs
  induction vs with
  | nil => exact fun s _ => ⟨s, s, rfl, rfl, rfl, rfl, rfl, fun _ _ => rfl⟩
  | cons v vs ih =>
    intro s hfits
    rw [List.length_cons] at hfits ⊢
    have hsp := toNat_sp_add_two (sp := s.regs.sp) (by omega)
    have hpushed : (s.pushed v).regs.sp.toNat = s.regs.sp.toNat + 2 := hsp
    obtain ⟨t, u, hpush, hpop, htsp, huregs, humem, hkept⟩ := ih (s.pushed v) (by omega)
    have hword : u.mem.wordAt (0x10000 - u.regs.sp.toNat) = v := by
      rw [huregs, humem,
        Memory.wordAt_congr (hkept _ (.inr (by omega))) (hkept _ (.inr (by omega)))]
      exact Memory.wordAt_setWord_same _ _ _
    have hmore := State.popMany_succ hpop (by rw [huregs]; omega)
    rw [hword, ← List.reverse_cons] at hmore
    refine ⟨t, u.retreatSp, ?_, hmore, by omega, ?_, humem, ?_⟩
    · rw [State.pushAll_cons v vs (by omega), hpush]
    · simp [huregs, State.pushed_regs]
    · intro a ha
      rw [hkept a (by omega), State.pushed_mem, hsp]
      exact Memory.byteAt_setWord_other _ _ (by omega) (by omega)

end Sys2Proof.Machine
end

section
/-! PROOFS. The services of INT (R103 to R112): which INT has one, and the whole effect of each. -/

namespace Sys2Proof.Machine

variable {s : State} {imm8 : Byte}

/-! ### Which INT has a service -/

/-- Every selector R105 lists is where a service of vector 1 stands. -/
theorem exists_selectorOf_eq {sel : Byte} (h : servedSelector sel) :
    ∃ v, v ≠ .vector0Terminate ∧ selectorOf v = sel := by
  simp only [servedSelector, List.mem_cons, List.not_mem_nil, or_false] at h
  rcases h with rfl | rfl | rfl | rfl | rfl | rfl | rfl | rfl | rfl
  · exact ⟨.terminate, by decide, rfl⟩
  · exact ⟨.readChar1, by decide, rfl⟩
  · exact ⟨.echoAndDraw2, by decide, rfl⟩
  · exact ⟨.writeChar5, by decide, rfl⟩
  · exact ⟨.writeAndDraw6, by decide, rfl⟩
  · exact ⟨.readChar7, by decide, rfl⟩
  · exact ⟨.readChar8, by decide, rfl⟩
  · exact ⟨.printString9, by decide, rfl⟩
  · exact ⟨.terminateWithCode76, by decide, rfl⟩

/-- The INTs with a service: 0x20, and 0x21 with a listed selector (R100, R102, R105). -/
theorem exists_interruptTable_eq_some_iff {sel : Byte} :
    (∃ v, interruptTable (intVector imm8) sel = some v) ↔
      imm8 = 0x20 ∨ (imm8 = 0x21 ∧ servedSelector sel) := by
  constructor
  · rintro ⟨v, hv⟩
    rcases interruptTable_eq_some hv with ⟨hvector, -⟩ | ⟨hvector, -, rfl⟩
    · exact .inl hvector
    · exact .inr ⟨hvector, selectorOf_mem v⟩
  · rintro (rfl | ⟨rfl, hsel⟩)
    · exact ⟨_, interruptTable_vector0 sel⟩
    · obtain ⟨v, hv, rfl⟩ := exists_selectorOf_eq hsel
      exact ⟨v, interruptTable_selectorOf hv⟩

/-- INT 0x21 with a service's selector runs that service (R100). -/
theorem exec_int21 {v : Service} (hv : v ≠ .vector0Terminate)
    (hsel : s.regs.read8 .ah = selectorOf v) :
    exec (.int 0x21) s = .next { runService v s with pc := s.pc + 2, count := s.count + 1 } :=
  exec_int_of_served (by rw [hsel]; exact interruptTable_selectorOf hv)

/-- Settles O33: a listed INT has a service, and no service touches the status or SP. -/
theorem servedInterruptsComplete : Obligations.ServedInterruptsComplete := by
  unfold Obligations.ServedInterruptsComplete
  intro imm8 s hserved
  obtain ⟨v, hv⟩ := exists_interruptTable_eq_some_iff.2 hserved
  obtain ⟨-, -, hstatus, -, -, ⟨al, hregs⟩, -⟩ := runService_frame v s
  refine ⟨_, exec_int_of_served hv, rfl, rfl, hstatus, ?_⟩
  simp [hregs]

/-- Settles O34: a number other than 0x20 and 0x21 has no service for any AH. -/
theorem unservedVectorsRaise : Obligations.UnservedVectorsRaise := by
  unfold Obligations.UnservedVectorsRaise
  intro imm8 s h20 h21
  have hnone : interruptTable (intVector imm8) (s.regs.read8 .ah) = none := by
    rw [Option.eq_none_iff_forall_ne_some]
    intro v hv
    rcases interruptTable_eq_some hv with ⟨hvector, -⟩ | ⟨hvector, -⟩
    · exact h20 hvector
    · exact h21 hvector
  exact ⟨_, exec_int_of_unserved hnone, rfl, rfl, rfl, rfl⟩

/-! ### Terminating services -/

/-- Settles O36: the services that stand at vector 0 and at selectors 0 and 76 are the halts, and
the loop's first check ends a run with the halt flag set. -/
theorem terminatingServicesHaltTheRun : Obligations.TerminatingServicesHaltTheRun := by
  unfold Obligations.TerminatingServicesHaltTheRun
  refine ⟨fun s => ?_, fun s hsel => ?_, fun s hsel => ?_, fun s => step_of_halted⟩
  · exact exec_int_of_served (interruptTable_vector0 _)
  · exact exec_int21 (v := .terminate) (by decide) hsel
  · exact exec_int21 (v := .terminateWithCode76) (by decide) hsel

/-- The services that set the halt flag are those that terminate (R103, R104, R113, R115). -/
theorem runService_halted (v : Service) (s : State) :
    (runService v s).halted = s.halted ∨
      v = .vector0Terminate ∨ v = .terminate ∨ v = .terminateWithCode76 := by
  cases v <;> simp [runService] <;> rfl

/-! ### Console services -/

/-- Settles O37: selectors 1, 7 and 8 are where the three reads stand, each with the
same effect, and the byte read depends on the host's input alone. -/
theorem readServicesFillAl : Obligations.ReadServicesFillAl := by
  unfold Obligations.ReadServicesFillAl
  refine fun s => ⟨s.nextConsoleByte, ?_, fun r hsel => ?_⟩
  · intro c cs hinput
    rw [State.nextConsoleByte, hinput]
  · simp only [List.mem_cons, List.not_mem_nil, or_false] at hsel
    rcases hsel with hsel | hsel | hsel
    · exact exec_int21 (v := .readChar1) (by decide) hsel
    · exact exec_int21 (v := .readChar7) (by decide) hsel
    · exact exec_int21 (v := .readChar8) (by decide) hsel

/-- Settles O39: selectors 2 and 6 are where the two draws stand. -/
theorem writeAndDrawServicesLeaveAlOpen : Obligations.WriteAndDrawServicesLeaveAlOpen := by
  unfold Obligations.WriteAndDrawServicesLeaveAlOpen
  rintro s (hsel | hsel) <;> refine ⟨s.nextDraw, ?_⟩
  · exact exec_int21 (v := .echoAndDraw2) (by decide) hsel
  · exact exec_int21 (v := .writeAndDraw6) (by decide) hsel

/-! ### The print service -/

section Scan

variable (m : Memory) (a n : Nat)

theorem scanString_length_le : (scanString m a n).length ≤ n := by
  induction n generalizing a with
  | zero => exact Nat.le_refl 0
  | succ n ih =>
    unfold scanString
    split
    · exact Nat.zero_le _
    · exact Nat.succ_le_succ (ih (a + 1))

/-- The scanned bytes are those of memory from `a` upward, and none is the end mark (R112). -/
theorem scanString_getElem? {k : Nat} (h : k < (scanString m a n).length) :
    (scanString m a n)[k]? = some (m.byteAt (a + k)) ∧ m.byteAt (a + k) ≠ Config.stringEnd := by
  induction n generalizing a k with
  | zero => cases h
  | succ n ih =>
    unfold scanString at h ⊢
    split at h
    · cases h
    · rename_i hmark
      rw [if_neg hmark]
      cases k with
      | zero => exact ⟨rfl, hmark⟩
      | succ k =>
        rw [List.getElem?_cons_succ, show a + (k + 1) = a + 1 + k by omega]
        exact ih (a + 1) (Nat.lt_of_succ_lt_succ h)

/-- Where the scan ends before its limit, it ends at the end mark (R112). -/
theorem byteAt_scanString_length (h : (scanString m a n).length < n) :
    m.byteAt (a + (scanString m a n).length) = Config.stringEnd := by
  induction n generalizing a with
  | zero => cases h
  | succ n ih =>
    unfold scanString at h ⊢
    split at h
    · rename_i hmark
      rw [if_pos hmark]
      exact hmark
    · rename_i hmark
      rw [if_neg hmark, List.length_cons, Nat.add_comm _ 1, ← Nat.add_assoc]
      exact ih (a + 1) (Nat.lt_of_succ_lt_succ h)

end Scan

/-- Settles O40: selector 9 is where the print service stands, and it writes the bytes of the scan
from DX to the end of memory. -/
theorem printServiceStopsAtTheDollar : Obligations.PrintServiceStopsAtTheDollar := by
  unfold Obligations.PrintServiceStopsAtTheDollar
  intro s hsel
  have hdx := (s.regs.read16 .dx).isLt
  have hlen := scanString_length_le s.mem (s.regs.read16 .dx).toNat
    (Config.memSize - (s.regs.read16 .dx).toNat)
  refine ⟨_, exec_int21 (v := .printString9) (by decide) hsel, ?_, ?_, ?_⟩
  · simp only [Config.memSize] at hlen ⊢
    omega
  · exact fun k => scanString_getElem? _ _ _
  · intro hin
    refine byteAt_scanString_length _ _ _ ?_
    simp only [Config.memSize] at hin ⊢
    omega

end Sys2Proof.Machine
end

section
/-! PROOFS. Everything an instruction can do, as one relation, and what a step does from outside it:
the rules of the whole machine and its invariants are case analyses of these two. -/

namespace Sys2Proof.Machine

variable {s t : State} {i : Instr}

/-! ### All an instruction can do -/

/-- The effects of the seven instructions on `s`, RET, INT and CALL each with its fault (R77 to R79,
R83 to R86, R97, R102, R105). -/
inductive Effect (s : State) : Instr → State → Prop
  | nop : Effect s .nop { s with pc := s.pc + 1, count := s.count + 1 }
  | movAh (imm8 : Byte) : Effect s (.movAh imm8) { s with
      regs := { s.regs with ax := joinBytes imm8 (s.regs.read8 .al) },
      pc := s.pc + 2, count := s.count + 1 }
  | movDx (imm16 : Word) : Effect s (.movDx imm16) { s with
      regs := { s.regs with dx := imm16 }, pc := s.pc + 3, count := s.count + 1 }
  | jmp (rel8 : Byte) : Effect s (.jmp rel8) { s with
      pc := s.pc + 1 + rel8.toInt + 1, count := s.count + 1 }
  | ret (room : 2 ≤ s.regs.sp.toNat) : Effect s .ret { s with
      regs := { s.regs with sp := s.regs.sp - 2 },
      pc := retTarget (s.mem.wordAt (0x10000 - s.regs.sp.toNat)), count := s.count + 1 }
  | retFault (noRoom : s.regs.sp.toNat < 2) : Effect s .ret { s with
      status := .faulted (.memoryBounds 0x10000 s.offset) }
  | call (rel8 : Byte) (x8 : Option Byte) (room : 2 ≤ (s.regs.sp + 2).toNat) :
      Effect s (.call rel8 x8) { s with
        regs := { s.regs with sp := s.regs.sp + 2 },
        mem := s.mem.setWord (0x10000 - (s.regs.sp + 2).toNat) s.returnOffset,
        pc := s.callTarget rel8, count := s.count + 1 }
  | callFault (rel8 : Byte) (x8 : Option Byte) (noRoom : (s.regs.sp + 2).toNat < 2) :
      Effect s (.call rel8 x8) { s with
        regs := { s.regs with sp := s.regs.sp + 2 },
        status := .faulted (.memoryBounds 0x10000 s.offset) }
  | int (imm8 : Byte) (v : Service)
      (served : interruptTable (intVector imm8) (s.regs.read8 .ah) = some v) :
      Effect s (.int imm8) { runService v s with pc := s.pc + 2, count := s.count + 1 }
  | intFault (imm8 : Byte) (unserved : interruptTable (intVector imm8) (s.regs.read8 .ah) = none) :
      Effect s (.int imm8) { s with
        status := .faulted (.invalidInterrupt (intVector imm8) (s.regs.read8 .ah) imm8) }

/-- Every instruction answers a next state, and it is one of its effects. -/
theorem exec_answers_effect (i : Instr) (s : State) : ∃ t, exec i s = .next t ∧ Effect s i t := by
  cases i with
  | nop => exact ⟨_, exec_nop s, .nop⟩
  | movAh imm8 => exact ⟨_, exec_movAh imm8 s, .movAh imm8⟩
  | movDx imm16 => exact ⟨_, exec_movDx imm16 s, .movDx imm16⟩
  | ret =>
    rcases Nat.lt_or_ge s.regs.sp.toNat 2 with hsp | hsp
    · exact ⟨_, exec_ret_outside hsp, .retFault hsp⟩
    · exact ⟨_, exec_ret_inside hsp, .ret hsp⟩
  | int imm8 =>
    cases htable : interruptTable (intVector imm8) (s.regs.read8 .ah) with
    | some v => exact ⟨_, exec_int_of_served htable, .int imm8 v htable⟩
    | none => exact ⟨_, exec_int_of_unserved htable, .intFault imm8 htable⟩
  | call rel8 x8 =>
    rcases Nat.lt_or_ge (s.regs.sp + 2).toNat 2 with hsp | hsp
    · exact ⟨_, exec_call_outside rel8 x8 hsp, .callFault rel8 x8 hsp⟩
    · exact ⟨_, exec_call_inside rel8 x8 hsp, .call rel8 x8 hsp⟩
  | jmp rel8 => exact ⟨_, exec_jmp rel8 s, .jmp rel8⟩

theorem effect_of_exec (h : exec i s = .next t) : Effect s i t := by
  obtain ⟨u, hu, heffect⟩ := exec_answers_effect i s
  cases hu.symm.trans h
  exact heffect

/-! ### All a step can do -/

/-- Where the fetch answers an instruction, `pc` is inside memory and the window decodes (R154). -/
theorem State.fetchDecode_eq_instr (h : s.fetchDecode = .instr i)
    (hpc : s.pc < (Config.memSize : Int)) :
    0 ≤ s.pc ∧ ∃ rest, decode s.window = .instr i rest := by
  rcases lt_or_ge s.pc 0 with hneg | hlow
  · rw [State.fetchDecode_negative hneg] at h
    cases h
  · rw [State.fetchDecode_inside hlow hpc] at h
    refine ⟨hlow, ?_⟩
    cases hd : decode s.window <;> rw [hd] at h <;> cases h
    exact ⟨_, rfl⟩

/-- All a step of a running state can do: a check of the loop stops it, its fetch raises a fault, or
the state is ready and the decoded instruction has its effect (R151). -/
inductive StepEffect (s : State) : State → Prop
  | stopped (st : Status) (stop : s.loopStop = some st) : StepEffect s { s with status := st }
  | raised (k : FaultKind) (goes : s.loopStop = none) (fetch : s.fetchDecode = .raises k) :
      StepEffect s { s with status := .faulted k }
  | executed (i : Instr) (rest : List Byte) (t : State) (ready : s.Ready)
      (decoded : decode s.window = .instr i rest) (effect : Effect s i t) : StepEffect s t

theorem stepEffect_of_step (h : step s = .next t) : s.status = .running ∧ StepEffect s t := by
  obtain ⟨hrun, ⟨st, hstop, rfl⟩ | ⟨k, hloop, hfetch, rfl⟩ | ⟨i, hloop, hfetch, hexec⟩⟩ :=
    step_cases h
  · exact ⟨hrun, .stopped st hstop⟩
  · exact ⟨hrun, .raised k hloop hfetch⟩
  · obtain ⟨hhalted, hbound, hpc⟩ := State.loopStop_eq_none hloop
    obtain ⟨hlow, rest, hdecode⟩ := State.fetchDecode_eq_instr hfetch hpc
    have hready : s.Ready := ⟨hrun, hhalted, hbound, hlow, hpc⟩
    exact ⟨hrun, .executed i rest t hready hdecode (effect_of_exec hexec)⟩

/-- A running state's step answers a next state (R31). -/
theorem exists_step_of_running (hrun : s.status = .running) : ∃ t, step s = .next t := by
  unfold step
  rw [State.ended_false_iff.2 hrun]
  cases s.loopStop with
  | some st => exact ⟨_, rfl⟩
  | none =>
    cases s.fetchDecode with
    | instr i => exact (exec_answers_effect i s).imp fun _ h => h.1
    | raises k => exact ⟨_, rfl⟩

/-- Settles O10: a running state's step answers, and no other's. -/
theorem stepsFollowExactlyWhileRunning : Obligations.StepsFollowExactlyWhileRunning := by
  unfold Obligations.StepsFollowExactlyWhileRunning
  exact fun s => ⟨⟨fun ⟨_, h⟩ => (step_cases h).1, exists_step_of_running⟩, step_of_not_running⟩

/-! ### Frames -/

theorem RegFile.read16_with_ax (r : RegFile) (v : Word) {x : Reg16} (h : x ≠ .ax) :
    RegFile.read16 { r with ax := v } x = r.read16 x :=
  r.read16_write16_other v h

theorem RegFile.read16_with_dx (r : RegFile) (v : Word) {x : Reg16} (h : x ≠ .dx) :
    RegFile.read16 { r with dx := v } x = r.read16 x :=
  r.read16_write16_other v h

theorem RegFile.read16_with_sp (r : RegFile) (v : Word) {x : Reg16} (h : x ≠ .sp) :
    RegFile.read16 { r with sp := v } x = r.read16 x :=
  r.read16_write16_other v h

/-- CALL stores at the stack address after SP has advanced (R44). -/
theorem State.byteAt_call_frame (v : Word) (room : 2 ≤ (s.regs.sp + 2).toNat) {a : Nat}
    (hlow : (a : Int) ≠ s.advanceSp.stackAddress)
    (hhigh : (a : Int) ≠ s.advanceSp.stackAddress + 1) :
    (s.mem.setWord (0x10000 - (s.regs.sp + 2).toNat) v).byteAt a = s.mem.byteAt a := by
  obtain ⟨h0, -, hnat, -⟩ := State.stackAddress_inside (s := s.advanceSp) room
  simp only [State.advanceSp_regs] at hnat
  exact Memory.byteAt_setWord_other _ _ (by omega) (by omega)

/-- Settles O18: by the effect of the instruction; a service writes AL alone, and CALL's two bytes
are those at the advanced stack address. -/
theorem execChangesOnlyItsDestinations : Obligations.ExecChangesOnlyItsDestinations := by
  unfold Obligations.ExecChangesOnlyItsDestinations
  intro i s t h
  cases effect_of_exec h with
  | nop => simp
  | movAh imm8 => simp +contextual [RegFile.read16_with_ax]
  | movDx imm16 => simp +contextual [RegFile.read16_with_dx]
  | jmp rel8 => simp
  | ret room => simp +contextual [RegFile.read16_with_sp]
  | retFault noRoom => simp
  | call rel8 x8 room =>
    have hframe (a : Nat) := State.byteAt_call_frame (s := s) (a := a) s.returnOffset room
    simpa +contextual [RegFile.read16_with_sp] using hframe
  | callFault rel8 x8 noRoom => simp +contextual [RegFile.read16_with_sp]
  | int imm8 v served =>
    obtain ⟨hmem, -, -, -, hbound, ⟨al, hregs⟩, -⟩ := runService_frame v s
    simp +contextual [hmem, hbound, hregs, RegFile.read16_with_ax]
  | intFault imm8 unserved => simp

/-- An instruction either completes, counted and with the status as it was, or faults and leaves
`pc`, the count, memory and the output (R120, R155). -/
theorem Effect.completes_or_faults (h : Effect s i t) :
    (t.status = s.status ∧ t.count = s.count + 1) ∨
      ((∃ k, t.status = .faulted k) ∧ t.pc = s.pc ∧ t.count = s.count ∧ t.out = s.out ∧
        t.mem = s.mem) := by
  cases h with
  | nop | movAh | movDx | jmp | ret | call => exact .inl ⟨rfl, rfl⟩
  | int imm8 v =>
    obtain ⟨-, -, hstatus, -⟩ := runService_frame v s
    exact .inl ⟨hstatus, rfl⟩
  | retFault | callFault | intFault => exact .inr ⟨⟨_, rfl⟩, rfl, rfl, rfl, rfl⟩

end Sys2Proof.Machine
end

section
/-! PROOFS. The rules of the whole machine (R32, R35, R120, R126) and the invariants of a step (R26,
R30, R152): each by what a step can do. -/

namespace Sys2Proof.Machine

variable {s t : State} {i : Instr} {rest : List Byte}

/-! ### Faults -/

/-- Settles O13: a check of the loop raises no fault, the fetch changes the status alone, and an
instruction that completes is running. -/
theorem faultingStepsLeavePcCountOutAndMemory :
    Obligations.FaultingStepsLeavePcCountOutAndMemory := by
  unfold Obligations.FaultingStepsLeavePcCountOutAndMemory
  intro s t k hstep hfault
  have hended : step t = .fault .runEnded := step_of_not_running (by simp [hfault])
  obtain ⟨hrun, heffect⟩ := stepEffect_of_step hstep
  cases heffect with
  | stopped st hstop => exact absurd hfault ((State.loopStop_eq_some hstop).2.1 k)
  | raised => exact ⟨rfl, rfl, rfl, rfl, hended⟩
  | executed i rest t _ _ heffect =>
    rcases heffect.completes_or_faults with ⟨hstatus, -⟩ | ⟨-, hpc, hcount, hout, hmem⟩
    · cases hfault.symm.trans (hstatus.trans hrun)
    · exact ⟨hpc, hcount, hout, hmem, hended⟩

/-- Settles O14: by the effect of the instruction, whose guards are the three cases. -/
theorem decodedInstructionsFaultExactlyWhen : Obligations.DecodedInstructionsFaultExactlyWhen := by
  unfold Obligations.DecodedInstructionsFaultExactlyWhen
  intro s t i rest hready hdecode hstep
  have ⟨hrun, _⟩ := hready
  rw [step_of_decode_instr hready hdecode] at hstep
  cases effect_of_exec hstep with
  | nop | movAh | movDx | jmp => simp [hrun]
  | ret room =>
    simp [hrun]
    omega
  | retFault noRoom => simpa using noRoom
  | call rel8 x8 room =>
    simp [hrun] at room ⊢
    omega
  | callFault rel8 x8 noRoom => simpa using noRoom
  | int imm8 v served =>
    have hserved := exists_interruptTable_eq_some_iff.1 ⟨v, served⟩
    obtain ⟨-, -, hstatus, -⟩ := runService_frame v s
    constructor
    · rintro ⟨k, hfault⟩
      cases hfault.symm.trans (hstatus.trans hrun)
    · rintro (⟨h, -⟩ | ⟨⟨_, _, h⟩, -⟩ | ⟨n, h, hunserved⟩) <;> cases h
      exact absurd hserved hunserved
  | intFault imm8 unserved =>
    refine iff_of_true ⟨_, rfl⟩ (.inr (.inr ⟨imm8, rfl, fun hserved => ?_⟩))
    obtain ⟨v, hv⟩ := exists_interruptTable_eq_some_iff.2 hserved
    cases unserved.symm.trans hv

/-! ### The bytes at pc -/

/-- The byte at `pc` is the first of the encoding of what the window decodes to. -/
theorem byteAt_pc_of_decode (hready : s.Ready) (hdecode : decode s.window = .instr i rest)
    {op : Byte} (henc : (encode i).head? = some op) : s.mem.byteAt s.pc.toNat = op := by
  have ⟨_, _, _, hlow, hhigh⟩ := hready
  obtain ⟨more, hwindow⟩ := State.window_eq_cons hlow hhigh
  obtain ⟨tail, henc⟩ := List.head?_eq_some_iff.1 henc
  rw [eq_encode_append_of_decode hdecode, henc] at hwindow
  exact (List.cons.inj hwindow).1.symm

/-- The byte after an INT's opcode byte is its number. -/
theorem byteAt_pc_succ_of_decode_int {imm8 : Byte} (hready : s.Ready)
    (hdecode : decode s.window = .instr (.int imm8) rest) :
    s.mem.byteAt (s.pc.toNat + 1) = imm8 := by
  have ⟨_, _, _, hlow, hhigh⟩ := hready
  have hwindow := eq_encode_append_of_decode hdecode
  rw [State.window_eq (by omega)] at hwindow
  have htail := (List.cons.inj hwindow).2
  split at htail
  · exact (List.cons.inj htail).1
  · cases htail

/-- No instruction but INT touches the output or the halt flag, and a service only appends to the
output (R35, R47, R115). -/
theorem Effect.out_halted (h : Effect s i t) :
    (t.out = s.out ∧ t.halted = s.halted) ∨
      ∃ imm8 v, i = .int imm8 ∧ interruptTable (intVector imm8) (s.regs.read8 .ah) = some v ∧
        (∃ bs, t.out = s.out ++ bs) ∧ t.halted = (runService v s).halted := by
  cases h with
  | int imm8 v served =>
    obtain ⟨-, -, -, -, -, -, hout⟩ := runService_frame v s
    exact .inr ⟨imm8, v, rfl, served, hout, rfl⟩
  | _ => exact .inl ⟨rfl, rfl⟩

/-- Settles O41: no instruction but INT writes to the output, and a service only appends to it. -/
theorem outputOnlyGrows : Obligations.OutputOnlyGrows := by
  unfold Obligations.OutputOnlyGrows
  intro s t hstep
  obtain ⟨-, heffect⟩ := stepEffect_of_step hstep
  cases heffect with
  | stopped | raised => exact ⟨⟨[], by simp⟩, fun _ => rfl⟩
  | executed i rest t hready hdecode heffect =>
    rcases heffect.out_halted with ⟨hout, -⟩ | ⟨imm8, v, rfl, -, hout, -⟩
    · exact ⟨⟨[], by simp [hout]⟩, fun _ => hout⟩
    · exact ⟨hout, fun hop => absurd (byteAt_pc_of_decode hready hdecode rfl) hop⟩

/-- A service that sets the halt flag is one of those of INT 0x20, and of INT 0x21 with selector 0
or 76 (R103, R104, R113). -/
theorem halting_service {imm8 sel : Byte} {v : Service}
    (htable : interruptTable (intVector imm8) sel = some v)
    (hclear : s.halted = false) (hset : (runService v s).halted = true) :
    imm8 = 0x20 ∨ (imm8 = 0x21 ∧ (sel = 0 ∨ sel = 76)) := by
  rcases runService_halted v s with hkept | hv
  · rw [hkept, hclear] at hset
    cases hset
  · rcases interruptTable_eq_some htable with ⟨h20, -⟩ | ⟨h21, hne, rfl⟩
    · exact .inl h20
    · rcases hv with rfl | rfl | rfl
      · exact absurd rfl hne
      · exact .inr ⟨h21, .inl rfl⟩
      · exact .inr ⟨h21, .inr rfl⟩

/-- Settles O42: no instruction but INT sets the halt flag, and of the services only those that
terminate; the table says where they stand. -/
theorem onlyTerminatingServicesSetTheHaltFlag :
    Obligations.OnlyTerminatingServicesSetTheHaltFlag := by
  unfold Obligations.OnlyTerminatingServicesSetTheHaltFlag
  intro s t hstep hclear hset
  obtain ⟨-, heffect⟩ := stepEffect_of_step hstep
  cases heffect with
  | stopped | raised => cases hclear.symm.trans hset
  | executed i rest t hready hdecode heffect =>
    rcases heffect.out_halted with ⟨-, hkept⟩ | ⟨imm8, v, rfl, htable, -, hhalted⟩
    · cases hclear.symm.trans (hkept.symm.trans hset)
    · rw [byteAt_pc_succ_of_decode_int hready hdecode]
      exact ⟨byteAt_pc_of_decode hready hdecode rfl,
        halting_service htable hclear (hhalted.symm.trans hset)⟩

/-- Settles O43: a check of the loop and a fault end the run and count nothing; a completed
instruction is counted. -/
theorem completedInstructionsAreCounted : Obligations.CompletedInstructionsAreCounted := by
  unfold Obligations.CompletedInstructionsAreCounted
  intro s t hstep
  obtain ⟨hrun, heffect⟩ := stepEffect_of_step hstep
  cases heffect with
  | stopped st hstop => exact .inr ⟨(State.loopStop_eq_some hstop).1, rfl, rfl⟩
  | raised => exact .inr ⟨nofun, rfl, rfl⟩
  | executed i rest t _ _ heffect =>
    rcases heffect.completes_or_faults with ⟨hstatus, hcount⟩ | ⟨⟨k, hfault⟩, hpc, hcount, -, -⟩
    · exact .inl ⟨hstatus.trans hrun, hcount⟩
    · exact .inr ⟨by simp [hfault], hcount, hpc⟩

/-! ### Invariants -/

theorem Effect.maxInstructions_eq (h : Effect s i t) : t.maxInstructions = s.maxInstructions := by
  cases h with
  | int imm8 v =>
    obtain ⟨-, -, -, -, hbound, -⟩ := runService_frame v s
    exact hbound
  | _ => rfl

theorem StepEffect.maxInstructions_eq (h : StepEffect s t) :
    t.maxInstructions = s.maxInstructions := by
  cases h with
  | stopped | raised => rfl
  | executed _ _ _ _ _ heffect => exact heffect.maxInstructions_eq

/-- Settles O49: an instruction is executed only below the bound, and counts one at most. -/
theorem countStaysInBound : Obligations.CountStaysInBound := by
  unfold Obligations.CountStaysInBound
  intro s t hcount hstep
  obtain ⟨-, heffect⟩ := stepEffect_of_step hstep
  have hbound := heffect.maxInstructions_eq
  refine ⟨?_, hbound⟩
  unfold State.CountInBound
  rw [hbound]
  cases heffect with
  | stopped | raised => exact hcount
  | executed i rest t hready _ heffect =>
    have ⟨_, _, hbelow, _, _⟩ := hready
    intro n hn
    have hlt := State.atInstructionBound_eq_false.1 hbelow n hn
    rcases heffect.completes_or_faults with ⟨-, hcount⟩ | ⟨-, -, hcount, -, -⟩ <;> omega

/-- Settles O50: only the loop's first check gives the status Halted, and it looks at the flag; with
the flag set no instruction is executed. -/
theorem haltStatusAgreesWithTheFlag : Obligations.HaltStatusAgreesWithTheFlag := by
  unfold Obligations.HaltStatusAgreesWithTheFlag
  intro s t _ hstep
  obtain ⟨hrun, heffect⟩ := stepEffect_of_step hstep
  cases heffect with
  | stopped st hstop => exact ⟨(State.loopStop_eq_some hstop).2.2, fun h => ⟨h, rfl⟩⟩
  | raised => exact ⟨nofun, fun h => ⟨h, rfl⟩⟩
  | executed i rest t hready _ heffect =>
    have ⟨_, hclear, _⟩ := hready
    refine ⟨fun rc hrc => ?_, fun hset => by simp [hclear] at hset⟩
    rcases heffect.completes_or_faults with ⟨hstatus, -⟩ | ⟨⟨k, hfault⟩, -⟩
    · cases hrc.symm.trans (hstatus.trans hrun)
    · cases hrc.symm.trans hfault

/-- Settles O46: CALL is the one instruction that writes memory, and it stores inside it. -/
theorem memoryStaysCanonical : Obligations.MemoryStaysCanonical := by
  unfold Obligations.MemoryStaysCanonical
  intro s t hwf hstep
  obtain ⟨-, heffect⟩ := stepEffect_of_step hstep
  cases heffect with
  | stopped | raised => exact hwf
  | executed i rest t _ _ heffect =>
    cases heffect with
    | call rel8 x8 room => exact Memory.wf_setWord _ hwf (by simp only [Config.memSize]; omega)
    | int imm8 v =>
      obtain ⟨hmem, -⟩ := runService_frame v s
      exact hmem ▸ hwf
    | _ => exact hwf

theorem toNat_add_two_even {sp : Word} (h : sp.toNat % 2 = 0) : (sp + 2).toNat % 2 = 0 := by
  bv_omega

theorem toNat_sub_two_even {sp : Word} (h : sp.toNat % 2 = 0) : (sp - 2).toNat % 2 = 0 := by
  bv_omega

/-- Settles O47: RET and CALL, with its fault, move SP by 2 modulo 2^16; nothing else moves it. -/
theorem stackPointerStaysEven : Obligations.StackPointerStaysEven := by
  unfold Obligations.StackPointerStaysEven
  intro s t heven hstep
  obtain ⟨-, heffect⟩ := stepEffect_of_step hstep
  cases heffect with
  | stopped | raised => exact heven
  | executed i rest t _ _ heffect =>
    cases heffect with
    | ret => exact toNat_sub_two_even heven
    | call | callFault => exact toNat_add_two_even heven
    | int imm8 v =>
      obtain ⟨-, -, -, -, -, ⟨al, hregs⟩, -⟩ := runService_frame v s
      simpa [State.SpEven, hregs] using heven
    | _ => exact heven

/-- A displacement leads at most 128 bytes back and 127 forward (R65). -/
theorem displacement_bounds (rel8 : Byte) : -128 ≤ rel8.toInt ∧ rel8.toInt ≤ 127 :=
  ⟨BitVec.le_toInt rel8, Int.le_of_lt_add_one BitVec.toInt_lt⟩

theorem State.callTarget_eq (s : State) (rel8 : Byte) :
    s.callTarget rel8 = s.pc + 1 + rel8.toInt + 2 := rfl

/-- Where an instruction at an address of memory leads (R81, R83, R84, R86). -/
theorem Effect.pcInReach (h : Effect s i t) (hlow : 0 ≤ s.pc) (hhigh : s.pc < 0x10000) :
    t.PcInReach := by
  unfold State.PcInReach
  cases h with
  | jmp rel8 =>
    have := displacement_bounds rel8
    dsimp only
    omega
  | call rel8 =>
    have := displacement_bounds rel8
    dsimp only [State.callTarget_eq]
    omega
  | ret =>
    have := retTarget_bounds (s.mem.wordAt (0x10000 - s.regs.sp.toNat))
    dsimp only
    omega
  | _ =>
    dsimp only
    omega

/-- Settles O48: an instruction is executed at an address of memory, and where it leads from there
is within reach. -/
theorem pcStaysInReach : Obligations.PcStaysInReach := by
  unfold Obligations.PcStaysInReach
  intro s t hreach hstep
  obtain ⟨-, heffect⟩ := stepEffect_of_step hstep
  cases heffect with
  | stopped | raised => exact hreach
  | executed i rest t hready _ heffect =>
    have ⟨_, _, _, hlow, hhigh⟩ := hready
    exact heffect.pcInReach hlow hhigh

end Sys2Proof.Machine
end

section
/-! PROOFS. Start states (R36, R142, R146), what the host observes of a fault (R121), and runs of
many steps: a run with a bound ends (R157), and no run reads the registers that no rule names
(R24). -/

namespace Sys2Proof.Machine

variable {s t : State}

/-! ### Reset, load and the host -/

theorem reset_eq_startState : State.reset = startState none [] [] := rfl

/-- Settles O51: a start state's memory is the placed image, and its other fields are the
reset's. -/
theorem startStatesMeetTheInvariants : Obligations.StartStatesMeetTheInvariants := by
  unfold Obligations.StartStatesMeetTheInvariants
  intro bound input image hlen
  have hfits : Config.programBase + image.length ≤ Config.memSize := by
    simp only [Config.programBase, Config.memSize]
    omega
  have hreach : State.reset.PcInReach := by decide
  exact ⟨wf_imageCells image _ hfits, rfl, hreach, fun _ _ => Nat.zero_le _, nofun,
    reset_eq_startState⟩

/-- Settles O53: by the register; memory lists nothing at reset. -/
theorem resetStateIsZero : Obligations.ResetStateIsZero := by
  unfold Obligations.ResetStateIsZero
  exact ⟨fun x => by cases x <;> rfl, fun _ => rfl, rfl, rfl, rfl, rfl⟩

/-- Settles O54: the length decides what the load answers, and the placed image reads as its bytes
and as unlisted elsewhere. -/
theorem loadPlacesTheImage : Obligations.LoadPlacesTheImage := by
  unfold Obligations.LoadPlacesTheImage
  refine fun bound input => ⟨rfl, fun image hlen => load_long (Nat.not_le.2 hlen),
    fun image hlen => ⟨_, load_short hlen, ?inside, ?outside, rfl, rfl, rfl⟩⟩
  case inside =>
    intro k hk
    have hbyte := byteAt_imageCells image 0x100 (0x100 + k)
    rw [if_pos (Nat.le_add_right _ _), Nat.add_sub_cancel_left,
      List.getElem?_eq_getElem hk] at hbyte
    rw [List.getElem?_eq_getElem hk]
    exact congrArg some hbyte.symm
  case outside =>
    intro a ha
    refine (byteAt_imageCells image 0x100 a).trans ?_
    rcases ha with hbelow | habove
    · exact if_neg (by omega)
    · rw [if_pos (by omega), List.getElem?_eq_none (by omega)]
      rfl

/-- Settles O55: the observation of a faulted state is the record and the output. -/
theorem faultedRunsShowOnlyRecordAndOutput : Obligations.FaultedRunsShowOnlyRecordAndOutput := by
  unfold Obligations.FaultedRunsShowOnlyRecordAndOutput
  intro s t k hs ht hout
  simp [State.observe, hs, ht, hout]

/-! ### Bounded runs -/

/-- At the bound the step ends the run (R151, R152). -/
theorem step_ends_at_bound {n : Nat} (hmax : s.maxInstructions = some n) (hcount : n ≤ s.count)
    (hstep : step s = .next t) : t.status ≠ .running := by
  obtain ⟨-, heffect⟩ := stepEffect_of_step hstep
  cases heffect with
  | stopped st hstop => exact (State.loopStop_eq_some hstop).1
  | raised => exact nofun
  | executed i rest t hready =>
    have ⟨_, _, hbelow, _, _⟩ := hready
    have := State.atInstructionBound_eq_false.1 hbelow n hmax
    omega

/-- A run with room for `d` instructions below its bound ends within `d + 1` loop checks: each step
ends it or counts an instruction, and at the bound the loop stops it (R151, R157). -/
theorem run_ends_of_bound {n : Nat} (d : Nat) (hrun : s.status = .running)
    (hmax : s.maxInstructions = some n) (hroom : n ≤ s.count + d) :
    ∃ k t, k ≤ d + 1 ∧ Host.Core.run Sys2Proof.core k s = .next t ∧ t.status ≠ .running := by
  induction d generalizing s with
  | zero =>
    obtain ⟨t, hstep⟩ := exists_step_of_running hrun
    exact ⟨1, t, Nat.le_refl 1, run_next 0 hstep, step_ends_at_bound hmax hroom hstep⟩
  | succ d ih =>
    obtain ⟨t, hstep⟩ := exists_step_of_running hrun
    rcases completedInstructionsAreCounted s t hstep with ⟨hstill, hcount⟩ | ⟨hended, -⟩
    · have hbound := (stepEffect_of_step hstep).2.maxInstructions_eq
      obtain ⟨k, u, hk, hu, hend⟩ := ih hstill (hbound.trans hmax) (by omega)
      exact ⟨k + 1, u, Nat.succ_le_succ hk, (run_next k hstep).trans hu, hend⟩
    · exact ⟨1, t, Nat.succ_le_succ (Nat.zero_le _), run_next 0 hstep, hended⟩

/-- Settles O45: from any count there is room for at most the bound's number of instructions. -/
theorem boundedRunsEnd : Obligations.BoundedRunsEnd := by
  unfold Obligations.BoundedRunsEnd
  exact fun s n hrun hmax => run_ends_of_bound n hrun hmax (Nat.le_add_left n s.count)

/-! ### Registers no rule names -/

section Inert

variable (s) (q : RegFile)

/-- A service does not look at the inert registers (R24). -/
theorem runService_withInert (v : Service) :
    runService v (s.withInert q) = (runService v s).withInert q := by
  cases v <;> rfl

/-- No instruction looks at the inert registers, and each leaves them as they were (R24, R25). -/
theorem exec_withInert (i : Instr) :
    exec i (s.withInert q) = onNext (·.withInert q) (exec i s) := by
  cases i with
  | nop => rfl
  | movAh => rfl
  | movDx => rfl
  | jmp => rfl
  | ret =>
    rcases Nat.lt_or_ge s.regs.sp.toNat 2 with hsp | hsp
    · rw [exec_ret_outside hsp, exec_ret_outside (s := s.withInert q) hsp]
      rfl
    · rw [exec_ret_inside hsp, exec_ret_inside (s := s.withInert q) hsp]
      rfl
  | call rel8 x8 =>
    rcases Nat.lt_or_ge (s.regs.sp + 2).toNat 2 with hsp | hsp
    · rw [exec_call_outside _ _ hsp, exec_call_outside (s := s.withInert q) _ _ hsp]
      rfl
    · rw [exec_call_inside _ _ hsp, exec_call_inside (s := s.withInert q) _ _ hsp]
      rfl
  | int imm8 =>
    cases htable : interruptTable (intVector imm8) (s.regs.read8 .ah) with
    | some v =>
      rw [exec_int_of_served htable, exec_int_of_served (s := s.withInert q) htable,
        runService_withInert]
      rfl
    | none =>
      rw [exec_int_of_unserved htable, exec_int_of_unserved (s := s.withInert q) htable]
      rfl

/-- The loop's checks and the fetch do not look at a register, so no step does but through its
instruction (R24, R151). -/
theorem step_withInert : step (s.withInert q) = onNext (·.withInert q) (step s) := by
  have hended : (s.withInert q).ended = s.ended := rfl
  have hloop : (s.withInert q).loopStop = s.loopStop := rfl
  have hfetch : (s.withInert q).fetchDecode = s.fetchDecode := rfl
  simp only [step, hended, hloop, hfetch]
  cases s.ended with
  | true => rfl
  | false =>
    cases s.loopStop with
    | some st => rfl
    | none =>
      cases s.fetchDecode with
      | instr i => exact exec_withInert s q i
      | raises k => rfl

end Inert

/-- Settles O29: by the number of steps; each step commutes with taking the inert registers from
`q`. -/
theorem unreadRegistersCannotChangeARun : Obligations.UnreadRegistersCannotChangeARun := by
  unfold Obligations.UnreadRegistersCannotChangeARun
  intro k
  induction k with
  | zero => exact fun _ _ => rfl
  | succ k ih =>
    intro s q
    have hstep := step_withInert s q
    cases hs : step s with
    | next u =>
      rw [hs] at hstep
      rw [run_next k hs, run_next k hstep]
      exact ih u q
    | fault r =>
      rw [hs] at hstep
      rw [run_fault k hs, run_fault k hstep]
      rfl
    | refused r =>
      rw [hs] at hstep
      rw [run_refused k hs, run_refused k hstep]
      rfl

end Sys2Proof.Machine
end

section
/-! PROOFS. Closed code (R126): the four kinds of change a completed instruction makes to a run in
closed code, the step that keeps it, and the run that is never faulted. -/

namespace Sys2Proof.Machine

variable {s t u : State} {i : Instr} {code : Nat → Prop} {top : Nat}

theorem Memory.stackWord_eq (m : Memory) (k : Nat) :
    m.stackWord k = m.wordAt (0x10000 - 2 * k) := rfl

/-- Where the stack word at SP leads: to code, in closed code with a word on the stack (R86). -/
theorem State.InClosedCode.retTarget_goesOn (h : s.InClosedCode code top)
    (room : 2 ≤ s.regs.sp.toNat) :
    goesOn code (retTarget (s.mem.wordAt (0x10000 - s.regs.sp.toNat))) := by
  have heven := h.spEven
  have hword := h.returns (s.regs.sp.toNat / 2) (by omega) (by omega)
  rwa [Memory.stackWord_eq, show 2 * (s.regs.sp.toNat / 2) = s.regs.sp.toNat by omega] at hword

/-- A pop keeps closed code: the words that stay on the stack are words that were on it. -/
theorem State.InClosedCode.pop (h : s.InClosedCode code top) (room : 2 ≤ s.regs.sp.toNat)
    (hregs : u.regs = { s.regs with sp := s.regs.sp - 2 }) (hmem : u.mem = s.mem)
    (hhere : goesOn code u.pc) : u.InClosedCode code top := by
  have hsp : u.regs.sp.toNat = s.regs.sp.toNat - 2 := by
    rw [hregs]
    bv_omega
  have heven := h.spEven
  have habove := h.stackAbove
  exact {
    inMemory := h.inMemory
    closed := hmem ▸ h.closed
    served := by rw [hregs]; exact h.served
    here := .inr hhere
    spEven := by unfold State.SpEven at *; omega
    stackAbove := by omega
    returns := fun k h1 hk => hmem ▸ h.returns k h1 (by omega) }

/-- A push at `top` or above keeps closed code where the word is the offset of code: it changes no
byte of the code and no word under it. -/
theorem State.InClosedCode.push (h : s.InClosedCode code top) {v : Word}
    (room : s.regs.sp.toNat + 2 + top ≤ Config.memSize) (hwrap : s.regs.sp.toNat + 2 < 0x10000)
    (hregs : u.regs = { s.regs with sp := s.regs.sp + 2 })
    (hmem : u.mem = s.mem.setWord (0x10000 - (s.regs.sp + 2).toNat) v)
    (hword : goesOn code (retTarget v)) (hhere : goesOn code u.pc) : u.InClosedCode code top := by
  have hsp : (s.regs.sp + 2).toNat = s.regs.sp.toNat + 2 := toNat_sp_add_two hwrap
  have husp : u.regs.sp.toNat = s.regs.sp.toNat + 2 := by rw [hregs, ← hsp]
  have heven := h.spEven
  rw [hsp] at hmem
  simp only [Config.memSize] at room
  have same (a : Nat) (ha : a < 0x10000 - (s.regs.sp.toNat + 2) ∨ 0x10000 - s.regs.sp.toNat ≤ a) :
      u.mem.byteAt a = s.mem.byteAt a := by
    rw [hmem]
    exact Memory.byteAt_setWord_other _ _ (by omega) (by omega)
  exact {
    inMemory := h.inMemory
    closed := codeClosed_of_below h.inMemory h.closed fun a ha => same a (by omega)
    served := by rw [hregs]; exact h.served
    here := .inr hhere
    spEven := by unfold State.SpEven at *; omega
    stackAbove := by simp only [Config.memSize]; omega
    returns := by
      intro k h1 hk
      rw [Memory.stackWord_eq]
      rcases Nat.lt_or_ge s.regs.sp.toNat (2 * k) with hnew | hold
      · rw [show 2 * k = s.regs.sp.toNat + 2 by omega, hmem, Memory.wordAt_setWord_same]
        exact hword
      · rw [Memory.wordAt_congr (same _ (by omega)) (same _ (by omega))]
        exact h.returns k h1 hold }

theorem goesOn_of_eq {a b : Int} (h : goesOn code a) (hb : b = a) : goesOn code b := hb ▸ h

/-- A service in closed code: AH stays, and the run is halted or goes on after the INT. -/
theorem State.InClosedCode.service {n : Nat} {imm8 : Byte} {v : Service}
    (h : s.InClosedCode code top) (hpc : s.pc = n) (hlead : leadsToCode code n (.int imm8))
    (served : interruptTable (intVector imm8) (s.regs.read8 .ah) = some v) :
    { runService v s with pc := s.pc + 2, count := s.count + 1 }.InClosedCode code top := by
  obtain ⟨hmem, -, -, -, -, ⟨al, hregs⟩, -⟩ := runService_frame v s
  refine h.keep hmem (by simp [hregs]) (by simpa [hregs] using h.served) ?_
  rcases interruptTable_eq_some served with ⟨-, rfl⟩ | ⟨rfl, -, -⟩
  · exact .inl rfl
  · rcases hlead with h20 | ⟨-, hnext⟩
    · cases h20
    · exact .inr (goesOn_of_eq hnext (by dsimp only; omega))

/-- A decoded instruction that leads only to code keeps closed code, and raises no fault where a
CALL and a RET have room on the stack. -/
theorem State.InClosedCode.effect {n : Nat} (h : s.InClosedCode code top)
    (hrun : s.status = .running) (hpc : s.pc = n) (hn : n + 3 ≤ top) (hlead : leadsToCode code n i)
    (hcall : ∀ rel8 x8, i = .call rel8 x8 → s.regs.sp.toNat + 2 + top ≤ Config.memSize)
    (hret : i = .ret → 2 ≤ s.regs.sp.toNat) (heffect : Effect s i t) :
    t.FaultFree ∧ t.InClosedCode code top := by
  have hfree {u : State} (hu : u.status = s.status) : u.FaultFree :=
    State.faultFree_of_running (hu.trans hrun)
  cases heffect with
  | nop =>
    have hnext : goesOn code (s.pc + 1) := goesOn_of_eq hlead (by omega)
    exact ⟨hfree rfl, h.keep rfl rfl h.served (.inr hnext)⟩
  | movAh imm8 =>
    obtain ⟨hserved, hlead⟩ := hlead
    have hnext : goesOn code (s.pc + 2) := goesOn_of_eq hlead (by omega)
    exact ⟨hfree rfl, h.keep rfl rfl (by simpa using hserved) (.inr hnext)⟩
  | movDx =>
    have hnext : goesOn code (s.pc + 3) := goesOn_of_eq hlead (by omega)
    exact ⟨hfree rfl, h.keep rfl rfl h.served (.inr hnext)⟩
  | jmp rel8 =>
    have htarget : goesOn code (s.pc + 1 + rel8.toInt + 1) :=
      goesOn_of_eq hlead (by simp only [sext8]; omega)
    exact ⟨hfree rfl, h.keep rfl rfl h.served (.inr htarget)⟩
  | ret room => exact ⟨hfree rfl, h.pop room rfl rfl (h.retTarget_goesOn room)⟩
  | retFault noRoom => exact absurd (hret rfl) (by omega)
  | call rel8 x8 room =>
    obtain ⟨hlead, hreturn⟩ := hlead
    have hroom := hcall rel8 x8 rfl
    have hwrap : s.regs.sp.toNat + 2 < 0x10000 := by simp only [Config.memSize] at hroom; omega
    have htarget : goesOn code (s.callTarget rel8) :=
      goesOn_of_eq hlead (by simp only [State.callTarget_eq, sext8]; omega)
    have hword : goesOn code (retTarget s.returnOffset) := by
      rw [State.returnOffset_eq, hpc]
      exact hreturn
    exact ⟨hfree rfl, h.push hroom hwrap rfl rfl hword htarget⟩
  | callFault rel8 x8 noRoom =>
    have hroom := hcall rel8 x8 rfl
    simp only [Config.memSize] at hroom
    rw [toNat_sp_add_two (by omega)] at noRoom
    omega
  | int imm8 v served =>
    obtain ⟨-, -, hstatus, -⟩ := runService_frame v s
    exact ⟨hfree hstatus, h.service hpc hlead served⟩
  | intFault imm8 unserved =>
    have hserved : imm8 = 0x20 ∨ (imm8 = 0x21 ∧ servedSelector (s.regs.read8 .ah)) :=
      hlead.imp_right fun h21 => ⟨h21.1, h.served⟩
    obtain ⟨v, hv⟩ := exists_interruptTable_eq_some_iff.2 hserved
    cases unserved.symm.trans hv

/-- Settles O44: a check of the loop leaves the run where it was; in closed code the fetch answers
an instruction that leads only to code, and that instruction keeps it. -/
theorem stepsInClosedCodeStayFaultFree : Obligations.StepsInClosedCodeStayFaultFree := by
  unfold Obligations.StepsInClosedCodeStayFaultFree
  intro code top s t hclosed hroom hstep
  obtain ⟨hrun, heffect⟩ := stepEffect_of_step hstep
  cases heffect with
  | stopped st hstop =>
    exact ⟨(State.loopStop_eq_some hstop).2.1, hclosed.keep rfl rfl hclosed.served hclosed.here⟩
  | raised k hloop hfetch =>
    obtain ⟨hclear, -, hhigh⟩ := State.loopStop_eq_none hloop
    obtain ⟨n, i, rest, -, -, -, hfetch', -⟩ := hclosed.fetch hclear hhigh
    cases hfetch.symm.trans hfetch'
  | executed i rest t hready hdecode heffect =>
    have ⟨_, hclear, _, _, hhigh⟩ := hready
    obtain ⟨hcall, hret⟩ := hroom hready
    obtain ⟨n, i', rest', hpc, hn, hdecode', -, hlead⟩ := hclosed.fetch hclear hhigh
    cases hdecode.symm.trans hdecode'
    refine hclosed.effect hrun hpc hn hlead ?_ ?_ heffect
    · rintro rel8 x8 rfl
      exact hcall (byteAt_pc_of_decode hready hdecode (by cases x8 <;> rfl))
    · rintro rfl
      exact hret (byteAt_pc_of_decode hready hdecode rfl)

/-- A run free of a fault, in closed code, with room on the stack wherever it comes to. -/
def State.RunsInClosedCode (code : Nat → Prop) (top : Nat) (s : State) : Prop :=
  s.FaultFree ∧ s.InClosedCode code top ∧
    ∀ n t, Host.Core.run Sys2Proof.core n s = .next t → t.StackRoom top

/-- Every step keeps it: what the next state comes to, the state comes to one step later. -/
theorem State.RunsInClosedCode.step (h : s.RunsInClosedCode code top)
    (hstep : Machine.step s = .next t) : t.RunsInClosedCode code top := by
  obtain ⟨-, hclosed, hroom⟩ := h
  obtain ⟨hfree, hclosed'⟩ :=
    stepsInClosedCodeStayFaultFree code top s t hclosed (hroom 0 s (run_zero s)) hstep
  exact ⟨hfree, hclosed', fun n u hu => hroom (n + 1) u ((run_next n hstep).trans hu)⟩

/-- Settles O56: every step keeps the run in closed code with room, so every run does. -/
theorem runsOfClosedCodeAreSafe : Obligations.RunsOfClosedCodeAreSafe := by
  unfold Obligations.RunsOfClosedCodeAreSafe
  intro code top s hfree hclosed hroom n t hrun
  have keep (s t : State) (h : s.RunsInClosedCode code top) (hstep : step s = .next t) :
      t.RunsInClosedCode code top := h.step hstep
  exact (run_keeps keep n s t ⟨hfree, hclosed, hroom⟩ hrun).1

end Sys2Proof.Machine
end
